-- ==== Sys2Proof/Word.lean ====
section
/-! DEFINITION. The machine word and its two integer readings (00_scope.md R10).
Nothing smaller than a word exists on this hardware (20_memory.md R51, R56). -/

namespace Sys2Proof

/-- A 32-bit pattern: what a register, a memory cell and the program counter hold (R10, R20, R29). -/
abbrev Word := BitVec 32

/-- `u32(w)`, the reading of a word in [0, 2^32 − 1] (R10). -/
abbrev u32 (w : Word) : Nat := w.toNat

/-- `s32(w)`, the two's-complement reading of a word in [−2^31, 2^31 − 1] (R10). -/
abbrev s32 (w : Word) : Int := w.toInt

/-- `wrap32(n)`, the word whose unsigned reading is `n` modulo 2^32, floored (R10). -/
abbrev wrap32 (n : Int) : Word := BitVec.ofInt 32 n

end Sys2Proof
end

