-- ==== Sys2Proof/Config.lean ====
section
/-! DEFINITION. The implementation parameters of 00_scope.md R7, each named once
(93_implementation_defined.md U5). The machine has no value that its manual leaves free at run
time (93_implementation_defined.md, end of part 1), so this file holds no opaque constant. -/

namespace Sys2Proof.Config

/-- `MEMSIZE`: memory cells, addresses 0 to 65535 (R7, R51). -/
@[reducible, simp] def memSize : Nat := 65536

/-- `NREGS`: general registers, numbered 0 to 7 (R7, R20). -/
@[reducible, simp] def numRegs : Nat := 8

/-- Bit position of the opcode field, bits 24 to 22 (R7, R82). -/
@[reducible, simp] def opcodeLow : Nat := 22

/-- Bit position of the regA field, bits 21 to 19 (R82). -/
@[reducible, simp] def regALow : Nat := 19

/-- Bit position of the regB field, bits 18 to 16 (R82). -/
@[reducible, simp] def regBLow : Nat := 16

/-- Width of the signed offset field, bits 15 to 0 (R7, R82). -/
@[reducible, simp] def offsetWidth : Nat := 16

/-- Longest label the assembler accepts (R7, R121). -/
@[reducible, simp] def labelMaxLength : Nat := 6

/-- `strict_decode`: whether fetched words with nonzero ignored bits are refused. This hardware's
value is false: ignored bits are ignored (R7, R89, U9; log entry 6). -/
@[reducible, simp] def strictDecode : Bool := false

/-- What a cell reads as when neither the image nor a store has put a word there: "memory
initializes to zero" (R34). -/
@[reducible, simp] def emptyCell : Word := 0#32

/-- The word fetch supplies when the program counter is outside memory (R181). -/
@[reducible, simp] def manufacturedHalt : Word := 25165824#32

/-- Entry point: the first step executes the word at address 0 (R34, R331). -/
@[reducible, simp] def resetPc : Word := 0#32

/-- Value of registers 1 to 7 after reset (R34; the spec's own decision D8; log entry 1). -/
@[reducible, simp] def resetRegister : Word := 0#32

end Sys2Proof.Config
end

