-- ==== Sys2Proof/Syntax.lean ====
section
/-! DEFINITION. The syntax of both levels of 00_scope.md R8: the decoded instruction of the machine
level (42_decoder.md R184, with `.fill` as the opcode table lists it) and the parsed line of the
assembly level (30_encoding.md R94, 60_exceptions.md R307). -/

namespace Sys2Proof

/-- A general register's number, 0 to 7 (10_state.md R20). -/
abbrev Reg := Fin 8

/-- One constructor per row of spec/opcode_table.json. Operands stand in the order regA, regB, then
destReg or offset (30_encoding.md R95, 42_decoder.md R184). -/
inductive Instr where
  /-- ADD (R200). -/
  | add (regA regB destReg : Reg)
  /-- NAND (R201). -/
  | nand (regA regB destReg : Reg)
  /-- LW: regA is the base, regB the destination (R210). -/
  | lw (regA regB : Reg) (offset : Int)
  /-- SW: regA is the base, regB the source (R212). -/
  | sw (regA regB : Reg) (offset : Int)
  /-- BEQ (R214). -/
  | beq (regA regB : Reg) (offset : Int)
  /-- JALR: regA holds the target, regB receives the link (R230). -/
  | jalr (regA regB : Reg)
  /-- HALT (R240). -/
  | halt
  /-- NOOP (R241). -/
  | noop
  /-- `.fill`, the data row of the table: a raw word. The decoder never selects it; a fetched data
  word decodes by its opcode bits like any other (R92, R145). -/
  | fill (value : Word)
deriving DecidableEq, Repr

/-- Whether a row is one of the eight instructions; `.fill` is not one (R99). -/
def Instr.isInstruction : Instr → Bool
  | .add .. => true
  | .nand .. => true
  | .lw .. => true
  | .sw .. => true
  | .beq .. => true
  | .jalr .. => true
  | .halt => true
  | .noop => true
  | .fill _ => false

namespace Asm

/-- The nine names of 30_encoding.md R84. -/
inductive Mnemonic where
  | add | nand | lw | sw | beq | jalr | halt | noop | fill
deriving DecidableEq, Repr

/-- A parsed source line: optional label, optional mnemonic, operand tokens (R94, R120). -/
structure Line where
  /-- The label, if the line carries one. -/
  label : Option String
  /-- The mnemonic as written. -/
  mnemonic : Option String
  /-- The operand tokens, in source order. -/
  operands : List String
deriving DecidableEq, Repr

/-- The assembler error kinds, complete (60_exceptions.md R306). -/
inductive ErrorKind where
  /-- A label is bound twice (R122). -/
  | duplicateLabel
  /-- A label breaks the strict label rule or is reserved (R121, R123, R124). -/
  | illegalLabel
  /-- A token is neither a numeric literal nor a known label (R142). -/
  | undefinedLabel
  /-- Bad or absent mnemonic, missing operand, excess operand (R141, R157, R158). -/
  | unknownInstruction
  /-- A register outside [0, 7] or an offset outside [−32768, 32767] (R144, R149). -/
  | overflowingField
deriving DecidableEq, Repr

/-- The error record (60_exceptions.md R307). -/
structure AsmError where
  /-- The kind. -/
  kind : ErrorKind
  /-- The label, operand or mnemonic at fault; empty for an absent mnemonic. -/
  token : String
  /-- The line's index, counted from 0. -/
  line : Nat
  /-- The bounds of the field, for `overflowingField` only. -/
  bounds : Option (Int × Int)
deriving DecidableEq, Repr

/-- The symbol table: label to address, latest binding first (40_symbol_table.md R120, R125). -/
abbrev SymTab := List (String × Nat)

end Asm

end Sys2Proof
end

