-- ==== Sys2Proof/WellFormed.lean ====
section
/-! DEFINITION. Well-formedness of a decoded instruction: every field in the range its encoding
field can hold (42_decoder.md R184). Register numbers are in range by their type. -/

namespace Sys2Proof

/-- The range of the signed 16-bit offset, [−32768, 32767] (00_scope.md R11, 30_encoding.md R82). -/
abbrev offsetInRange (o : Int) : Prop := -32768 ≤ o ∧ o ≤ 32767

/-- Every field of the instruction is in the range its encoding field can hold (R184). -/
def Instr.wellFormed : Instr → Bool
  | .add _ _ _ => true
  | .nand _ _ _ => true
  | .lw _ _ o => decide (offsetInRange o)
  | .sw _ _ o => decide (offsetInRange o)
  | .beq _ _ o => decide (offsetInRange o)
  | .jalr _ _ => true
  | .halt => true
  | .noop => true
  | .fill _ => true

end Sys2Proof
end

