-- ==== Sys2Proof/Decode.lean ====
section
/-! DEFINITION. Field extraction and decoding (30_encoding.md R85, R89; 42_decoder.md R182 to R186),
then packing and encoding (30_encoding.md R83, R88; 41_encoder.md R160). Decoding is on bits 24 to 22
alone and total on all 2^32 words. -/

namespace Sys2Proof

/-! ### Fields -/

/-- `w[hi:lo]`, the unsigned integer formed by bits `hi` down to `lo` of `w` (00_scope.md R9). -/
def bits (w : Word) (hi lo : Nat) : Nat := u32 w / 2 ^ lo % 2 ^ (hi + 1 - lo)

/-- `opcode = w[24:22]` (R85, R182). -/
def opcodeOf (w : Word) : Nat := bits w (Config.opcodeLow + 2) Config.opcodeLow

/-- `regA = w[21:19]` (R85). -/
def regAOf (w : Word) : Reg := Fin.ofNat 8 (bits w (Config.regALow + 2) Config.regALow)

/-- `regB = w[18:16]` (R85). -/
def regBOf (w : Word) : Reg := Fin.ofNat 8 (bits w (Config.regBLow + 2) Config.regBLow)

/-- `destReg = w[2:0]` (R85). -/
def destRegOf (w : Word) : Reg := Fin.ofNat 8 (bits w 2 0)

/-- `sext_16(v)`: the 16-bit field `v` read as a two's-complement integer (00_scope.md R11). -/
def sext16 (v : Nat) : Int := if v / 2 ^ 15 % 2 = 0 then (v : Int) else (v : Int) - 65536

/-- `offset = sext_16(w[15:0])`, unscaled (R85, R87). -/
def offsetOf (w : Word) : Int := sext16 (bits w (Config.offsetWidth - 1) 0)

/-! ### Decoding -/

/-- What the decoder makes of a word: an instruction, or an opcode no instruction has. The second is
the defensive arm of 42_decoder.md R185, unreachable by R186. -/
inductive Decoded where
  /-- The instruction the word decodes to. -/
  | instr (i : Instr)
  /-- The opcode maps to no instruction: rejected by name, with the opcode. -/
  | illegalOpcode (op : Nat)
deriving DecidableEq, Repr

/-- The dispatch table of R183 and R184, with the defensive arm of R185 last. -/
def dispatch (op : Nat) (w : Word) : Decoded :=
  match op with
  | 0 => .instr (.add (regAOf w) (regBOf w) (destRegOf w))
  | 1 => .instr (.nand (regAOf w) (regBOf w) (destRegOf w))
  | 2 => .instr (.lw (regAOf w) (regBOf w) (offsetOf w))
  | 3 => .instr (.sw (regAOf w) (regBOf w) (offsetOf w))
  | 4 => .instr (.beq (regAOf w) (regBOf w) (offsetOf w))
  | 5 => .instr (.jalr (regAOf w) (regBOf w))
  | 6 => .instr .halt
  | 7 => .instr .noop
  | k => .illegalOpcode k

/-- `decode(w)`: dispatch on bits 24 to 22; every other bit a format does not use is ignored
(R89, R182 to R184). -/
def decode (w : Word) : Decoded := dispatch (opcodeOf w) w

/-! ### Encoding -/

/-- `pack(op, a, b, rem)`, the packing formula (30_encoding.md R82, 41_encoder.md R160). -/
def pack (op a b rem : Nat) : Word :=
  BitVec.ofNat 32 (op * 2 ^ Config.opcodeLow + a * 2 ^ Config.regALow + b * 2 ^ Config.regBLow + rem)

/-- `o & 0xFFFF`: a signed offset as its 16-bit field (30_encoding.md R87). -/
def offsetField (o : Int) : Nat := (o % 65536).toNat

/-- The canonical word of an instruction (30_encoding.md R83, R88); a `.fill` row is its own word
(41_encoder.md R145). -/
def encode : Instr → Word
  | .add a b d => pack 0 a b d
  | .nand a b d => pack 1 a b d
  | .lw a b o => pack 2 a b (offsetField o)
  | .sw a b o => pack 3 a b (offsetField o)
  | .beq a b o => pack 4 a b (offsetField o)
  | .jalr a b => pack 5 a b 0
  | .halt => pack 6 0 0 0
  | .noop => pack 7 0 0 0
  | .fill v => v

/-- The canonical mask of the format an opcode belongs to (30_encoding.md R88). -/
def canonicalMask (op : Nat) : Word :=
  match op with
  | 0 => 0xFFC0FFF8#32
  | 1 => 0xFFC0FFF8#32
  | 2 => 0xFFC00000#32
  | 3 => 0xFFC00000#32
  | 4 => 0xFFC00000#32
  | 5 => 0xFFC0FFFF#32
  | _ => 0xFFFFFFFF#32

/-- Whether `w` is a canonical instruction word: `w & mask = opcode << 22` (30_encoding.md R88). -/
def isCanonical (w : Word) : Bool :=
  w &&& canonicalMask (opcodeOf w) == BitVec.ofNat 32 (opcodeOf w * 2 ^ Config.opcodeLow)

/-- Whether the parameter `strict_decode` refuses a fetched word; on this hardware, whose parameter is
false, it refuses none (R7, R89; 93_implementation_defined.md U9). -/
def refusedByStrictDecode (w : Word) : Bool := Config.strictDecode && !isCanonical w

/-! ### The opcode table's words -/

/-- The cell's word when the low `nbits` bits are those of `w` and every other bit is 0. A word has no
byte order (20_memory.md R56). -/
def tableWord (nbits w : Nat) : Word := BitVec.ofNat 32 (w % 2 ^ nbits)

/-- The instruction the decoder reads from a word numbered as spec/opcode_table.json numbers it. -/
def decodeTableWord (nbits w : Nat) : Option Instr :=
  match decode (tableWord nbits w) with
  | .instr i => some i
  | .illegalOpcode _ => none

end Sys2Proof
end

