-- ==== Sys2Proof/Machine/State.lean ====
section
/-! DEFINITION. The architectural state of 10_state.md (R20 to R36), the reasons a step can stop, and
the state right after reset (R34, R331). There are no flags, no other register file and no privilege
or interrupt state to hold (R31, R32, R310, R312). -/

namespace Sys2Proof.Machine

/-- The record of why the machine halted when the cause was not a HALT instruction (R28). It is state,
kept for the observer; it is not an outcome of the step function. -/
inductive FaultRecord where
  /-- `None`: no fault (code 0 in R301). -/
  | none
  /-- `InvalidAddress(addr)`: an LW or SW whose effective address was outside memory; the address is
  the unbounded integer (R28, R54; code 1 in R301). -/
  | invalidAddress (addr : Int)
  /-- `IllegalOpcode(op)`: the decoder's defensive arm; unreachable (R28, R185, R186; code 2 in R301). -/
  | illegalOpcode (op : Int)
deriving DecidableEq, Repr

/-- Memory's cells as (word address, word) pairs in ONE canonical form (`Memory.wf`). The addressable
unit is the 32-bit word: there is no byte to list (20_memory.md R51, R56; log entry 3). -/
abbrev Memory := List (Nat × Word)

/-- The canonical form: addresses strictly rising and inside memory, and no cell listed that holds
what an unlisted cell reads as. -/
abbrev Memory.wf (m : Memory) : Prop :=
  m.Pairwise (fun c c' => c.1 < c'.1) ∧ ∀ c ∈ m, c.1 < Config.memSize ∧ c.2 ≠ Config.emptyCell

/-- Everything the spec gives the machine (10_state.md). -/
structure State where
  /-- The eight general registers; cell 0 is the hardwired register 0 (R20, R21). -/
  regs : Vector Word 8
  /-- The program counter: a word address with a signed 32-bit reading (R23, R24). -/
  pc : Word
  /-- The staged next program counter (R25). -/
  npc : Word
  /-- The executed-instruction counter, unbounded (R26). -/
  executed : Nat
  /-- The halted flag: false is `Running`, true the terminal `Halted` (R27). -/
  halted : Bool
  /-- The fault record (R28). -/
  fault : FaultRecord
  /-- The 65536 memory cells (R29). -/
  mem : Memory
  /-- The loaded-word count (R30). -/
  nloaded : Nat
deriving DecidableEq, Repr

/-- Why a step can stop with no next state. -/
inductive Fault where
  /-- Raised by `step` on a state whose `halted` flag is already set: `step` is not defined there
  (47_engine.md R254). Safe: the model gives such a state no next state, as the spec does. -/
  | alreadyHalted
deriving DecidableEq, Repr

/-- Why the model gives no meaning. -/
inductive Refusal where
  /-- Raised by an arm of `exec` whose instruction has no meaning yet; no arm does. Safe. -/
  | notModelled (mnemonic : String)
  /-- Raised by `step` on a fetched non-canonical word when the parameter `strict_decode` is true; it is
  false on this hardware, so nothing raises it (R7; 93_implementation_defined.md U9). Safe. -/
  | nonCanonicalWord (w : Word)
deriving DecidableEq, Repr

/-- The machine right after reset, with an empty image (R34, R330 step 1). -/
def State.reset : State where
  regs := Vector.replicate 8 Config.resetRegister
  pc := Config.resetPc
  npc := Config.resetPc
  executed := 0
  halted := false
  fault := .none
  mem := []
  nloaded := 0

end Sys2Proof.Machine
end

