-- ==== Sys2Proof/Machine/Ops.lean ====
section
/-! DEFINITION. The named operations the instructions and the engine are built from: registers,
memory, fetch, the halting operations and the parts of a step (00_scope.md R12, 20_memory.md,
42_decoder.md R181, 47_engine.md R250, 60_exceptions.md R302 to R305). Taking an exception on this
hardware is the controlled halt of R302 to R304, one operation each cause; there is no return from one
(R305). -/

namespace Sys2Proof.Machine

/-! ### General registers -/

/-- `x[r]`: register 0 reads as 0 always (R12, R21). -/
def State.readReg (s : State) (r : Reg) : Word := if r = 0 then 0#32 else s.regs[r]

/-- `x[r] <- v`: a write to register 0 is suppressed (R12, R21). -/
def State.writeReg (s : State) (r : Reg) (v : Word) : State :=
  { s with regs := if r = 0 then s.regs else s.regs.set r v }

/-! ### Memory -/

/-- The word in cell `a`; a cell not listed reads as 0 (R34, R52). -/
def Memory.read : Memory → Nat → Word
  | [], _ => Config.emptyCell
  | (k, v) :: rest, a => if k = a then v else Memory.read rest a

/-- Every cell but `a`. -/
def Memory.erase (m : Memory) (a : Nat) : Memory := m.filter (fun c => c.1 ≠ a)

/-- Lists cell `a` before the first cell of a higher address. -/
def Memory.insert : Memory → Nat → Word → Memory
  | [], a, v => [(a, v)]
  | (k, u) :: rest, a, v =>
    if a < k then (a, v) :: (k, u) :: rest else (k, u) :: Memory.insert rest a v

/-- Cell `a` becomes `v` and every other cell stays; the canonical form is kept (R53). -/
def Memory.write (m : Memory) (a : Nat) (v : Word) : Memory :=
  if v = Config.emptyCell then Memory.erase m a else Memory.insert (Memory.erase m a) a v

/-- `MemRead(a, 1)` on the machine's memory; callers check the range first (R52). -/
def State.memRead (s : State) (a : Nat) : Word := Memory.read s.mem a

/-- `MemWrite(a, 1, v)` on the machine's memory; callers check the range first (R53). -/
def State.memWrite (s : State) (a : Nat) (v : Word) : State :=
  { s with mem := Memory.write s.mem a v }

/-- The cell an integer address names, `none` outside [0, 65535] (20_memory.md R54, R55). -/
def cellOf (addr : Int) : Option Nat :=
  if 0 ≤ addr ∧ addr < (Config.memSize : Int) then some addr.toNat else none

/-! ### Fetch -/

/-- `fetch(pc, mem)`: the cell at the program counter, or the manufactured HALT word when the program
counter is outside memory (42_decoder.md R181). -/
def State.fetch (s : State) : Word :=
  match cellOf (s32 s.pc) with
  | some a => s.memRead a
  | none => Config.manufacturedHalt

/-! ### Halting: the machine's only exceptions -/

/-- `halted <- true` (R12, 46_otype.md R240). -/
def State.halt (s : State) : State := { s with halted := true }

/-- Taking an exception: the controlled halt with its record (60_exceptions.md R304). Nothing is saved
and control goes nowhere; the step then completes normally (47_engine.md R262). -/
def State.controlledHalt (s : State) (why : FaultRecord) : State := { s.halt with fault := why }

/-- `raise InvalidAddress(ea)` (60_exceptions.md R302). -/
def State.raiseInvalidAddress (s : State) (ea : Int) : State :=
  s.controlledHalt (.invalidAddress ea)

/-- `raise IllegalOpcode(op)` (60_exceptions.md R303); unreachable (42_decoder.md R186). -/
def State.raiseIllegalOpcode (s : State) (op : Nat) : State :=
  s.controlledHalt (.illegalOpcode op)

/-- The cause code of a fault record (60_exceptions.md R301; the numbers are the spec's decision D10). -/
def faultCode : FaultRecord → Nat
  | .none => 0
  | .invalidAddress _ => 1
  | .illegalOpcode _ => 2

/-! ### The parts of a step -/

/-- The fall-through `(pc + 1) mod 65536`, floored (47_engine.md R251). -/
def nextSequential (pc : Word) : Word := wrap32 ((s32 pc + 1) % (Config.memSize : Int))

/-- `npc <- t` (R12, R25). -/
def State.setNpc (s : State) (t : Word) : State := { s with npc := t }

/-- Part 1 of a step: stage the fall-through (47_engine.md R250). -/
def State.stage (s : State) : State := s.setNpc (nextSequential s.pc)

/-- Part 5 of a step: `x[0] <- 0`, forced (10_state.md R21 c, 47_engine.md R250). -/
def State.forceZero (s : State) : State := { s with regs := s.regs.set 0 0#32 }

/-- Part 6 of a step: `pc <- npc` (47_engine.md R250). -/
def State.commitPc (s : State) : State := { s with pc := s.npc }

/-- Part 7 of a step: `executed <- executed + 1` (47_engine.md R250). -/
def State.count (s : State) : State := { s with executed := s.executed + 1 }

/-- Parts 5, 6 and 7, which end every step whatever the instruction did (47_engine.md R250, R262). -/
def State.finish (s : State) : State := s.forceZero.commitPc.count

/-- Ends the step of an executor that answered a next state. -/
def finishOutcome : Host.Outcome State Fault Refusal → Host.Outcome State Fault Refusal
  | .next s => .next s.finish
  | .fault f => .fault f
  | .refused r => .refused r

end Sys2Proof.Machine
end

