-- ==== Sys2Proof/Machine/Operands.lean ====
section
/-! DEFINITION. The operand forms: the one addressing mode, the arithmetic results and the
control-transfer values (43_rtype.md R202, 44_itype.md R214 and R216, 45_jtype.md R230). Sums are
computed over the integers; where a result goes into a 32-bit register it is wrapped there. The
hardware has no flags (10_state.md R31), so there is no flag computation. -/

namespace Sys2Proof.Machine

/-- The sum ADD writes: `wrap32(s32(x[regA]) + s32(x[regB]))`, no saturation and no trap (R200). -/
def addResult (u v : Word) : Word := wrap32 (s32 u + s32 v)

/-- The word NAND writes: `~(x[regA] & x[regB])` over all 32 bits (R201). -/
def nandResult (u v : Word) : Word := ~~~(u &&& v)

/-- `ea = s32(x[base]) + offset`, in words, an unbounded integer (R54, R216). -/
def State.effectiveAddress (s : State) (base : Reg) (offset : Int) : Int :=
  s32 (s.readReg base) + offset

/-- The target of a taken BEQ, `pc + 1 + offset`, not reduced modulo the memory size (R214 case d). -/
def State.branchTarget (s : State) (offset : Int) : Word := wrap32 (s32 s.pc + 1 + offset)

/-- The link JALR writes, `pc + 1`, not reduced modulo the memory size (R230). -/
def State.link (s : State) : Word := wrap32 (s32 s.pc + 1)

end Sys2Proof.Machine
end

