-- ==== Sys2Proof/Machine/IType.lean ====
section
/-! DEFINITION. The I-type executor: LW, SW and BEQ (44_itype.md). -/

namespace Sys2Proof.Machine

/-- LW (R210). The range check comes before the test of regB for register 0. -/
def execLw (regA regB : Reg) (offset : Int) (s : State) : Host.Outcome State Fault Refusal :=
  match cellOf (s.effectiveAddress regA offset) with
  | some a => .next (s.writeReg regB (s.memRead a))
  | none => .next (s.raiseInvalidAddress (s.effectiveAddress regA offset))

/-- SW (R212). Register 0 stores 0: there is no suppression on the memory side. -/
def execSw (regA regB : Reg) (offset : Int) (s : State) : Host.Outcome State Fault Refusal :=
  match cellOf (s.effectiveAddress regA offset) with
  | some a => .next (s.memWrite a (s.readReg regB))
  | none => .next (s.raiseInvalidAddress (s.effectiveAddress regA offset))

/-- BEQ (R214). When not taken the staged next program counter stands. -/
def execBeq (regA regB : Reg) (offset : Int) (s : State) : Host.Outcome State Fault Refusal :=
  if s.readReg regA = s.readReg regB then .next (s.setNpc (s.branchTarget offset)) else .next s

end Sys2Proof.Machine
end

