-- ==== Sys2Proof/Machine/JType.lean ====
section
/-! DEFINITION. The J-type executor: JALR (45_jtype.md). -/

namespace Sys2Proof.Machine

/-- JALR (R230). The link is written first and the target read second; when regA and regB name the same
register the link is written and the jump suppressed. -/
def execJalr (regA regB : Reg) (s : State) : Host.Outcome State Fault Refusal :=
  if regA = regB then .next (s.writeReg regB s.link)
  else .next ((s.writeReg regB s.link).setNpc ((s.writeReg regB s.link).readReg regA))

end Sys2Proof.Machine
end

