-- ==== Sys2Proof/Machine/OType.lean ====
section
/-! DEFINITION. The O-type executor: HALT and NOOP (46_otype.md). -/

namespace Sys2Proof.Machine

/-- HALT (R240). The engine still commits the program counter and counts the step. -/
def execHalt (s : State) : Host.Outcome State Fault Refusal := .next s.halt

/-- NOOP (R241). -/
def execNoop (s : State) : Host.Outcome State Fault Refusal := .next s

end Sys2Proof.Machine
end

