-- ==== Sys2Proof/Machine/RType.lean ====
section
/-! DEFINITION. The R-type executor: ADD and NAND (43_rtype.md). -/

namespace Sys2Proof.Machine

/-- ADD (R200). -/
def execAdd (regA regB destReg : Reg) (s : State) : Host.Outcome State Fault Refusal :=
  .next (s.writeReg destReg (addResult (s.readReg regA) (s.readReg regB)))

/-- NAND (R201). -/
def execNand (regA regB destReg : Reg) (s : State) : Host.Outcome State Fault Refusal :=
  .next (s.writeReg destReg (nandResult (s.readReg regA) (s.readReg regB)))

end Sys2Proof.Machine
end

