-- ==== Sys2Proof/Machine/Data.lean ====
section
/-! DEFINITION. The data row `.fill` as something the machine reaches: data words and instructions are
not told apart (30_encoding.md R92), so a raw word does what the instruction its opcode bits select
does (opcode_table.json's row `.fill`; log entry 2). -/

namespace Sys2Proof.Machine

/-- A raw word reached as an instruction (R92, with the dispatch of R183 and the defensive arm of R185). -/
def execFill (value : Word) (s : State) : Host.Outcome State Fault Refusal :=
  match opcodeOf value with
  | 0 => execAdd (regAOf value) (regBOf value) (destRegOf value) s
  | 1 => execNand (regAOf value) (regBOf value) (destRegOf value) s
  | 2 => execLw (regAOf value) (regBOf value) (offsetOf value) s
  | 3 => execSw (regAOf value) (regBOf value) (offsetOf value) s
  | 4 => execBeq (regAOf value) (regBOf value) (offsetOf value) s
  | 5 => execJalr (regAOf value) (regBOf value) s
  | 6 => execHalt s
  | 7 => execNoop s
  | op => .next (s.raiseIllegalOpcode op)

end Sys2Proof.Machine
end

