-- ==== Sys2Proof/Machine/Dispatch.lean ====
section
/-! DEFINITION. `execute` (47_engine.md R253): one arm per constructor of `Instr`. It acts on a state
whose fall-through is already staged, and changes only what the executor rule gives. -/

namespace Sys2Proof.Machine

def exec (i : Instr) (s : State) : Host.Outcome State Fault Refusal :=
  match i with
  | .add regA regB destReg => Sys2Proof.Machine.execAdd regA regB destReg s
  | .nand regA regB destReg => Sys2Proof.Machine.execNand regA regB destReg s
  | .lw regA regB offset => Sys2Proof.Machine.execLw regA regB offset s
  | .sw regA regB offset => Sys2Proof.Machine.execSw regA regB offset s
  | .beq regA regB offset => Sys2Proof.Machine.execBeq regA regB offset s
  | .jalr regA regB => Sys2Proof.Machine.execJalr regA regB s
  | .halt => Sys2Proof.Machine.execHalt s
  | .noop => Sys2Proof.Machine.execNoop s
  | .fill value => Sys2Proof.Machine.execFill value s

end Sys2Proof.Machine
end

