-- ==== Sys2Proof/Machine/Step.lean ====
section
/-! DEFINITION. One step of the engine (47_engine.md R250 to R262), and the state in which the next step
runs a given word. -/

namespace Sys2Proof.Machine

/-- `step(S)` (R250): stage, fetch, decode, execute, force register 0, commit, count. A halted machine
takes no step (R254). -/
def step (s : State) : Host.Outcome State Fault Refusal :=
  if s.halted then .fault .alreadyHalted
  else if refusedByStrictDecode s.fetch then .refused (.nonCanonicalWord s.fetch)
  else
    match decode s.fetch with
    | .instr i => finishOutcome (exec i s.stage)
    | .illegalOpcode op => finishOutcome (.next (s.stage.raiseIllegalOpcode op))

/-- `s` with a word placed where the next step fetches. The cell is the one at the program counter; a
program counter outside memory names no cell, so it is put at the entry point; and a halted machine
takes no step, so it is put back in `Running` with no fault record. From reset, neither happens.
It stands for the image load of 48_host_interface.md R280 (log entry 4). -/
def State.withFetchWord (s : State) (nbits w : Nat) : State :=
  let cell : Nat := (cellOf (s32 s.pc)).getD 0
  { s.memWrite cell (tableWord nbits w) with
    pc := wrap32 cell
    halted := false
    fault := .none }

end Sys2Proof.Machine
end

