-- ==== Sys2Proof/Machine/Text.lean ====
section
/-! DEFINITION. The text forms both ends of the core share: decimal integers (30_encoding.md R96,
41_encoder.md R161, 48_host_interface.md R281) and case-insensitive names (30_encoding.md R95). -/

namespace Sys2Proof.Asm

/-- Letters of a name in lower case (R95, R123). -/
def lowercase (t : String) : List Char := t.toList.map Char.toLower

/-- One or more decimal digits, read in base 10; leading zeros allowed (R96, decision D13). -/
def digitsValue (ds : List Char) : Option Nat :=
  if ds ≠ [] ∧ ds.all Char.isDigit then
    some (ds.foldl (fun n c => 10 * n + (c.toNat - '0'.toNat)) 0)
  else none

/-- An optional `-` and one or more decimal digits, of any size (R96, R281). -/
def integerOf (t : String) : Option Int :=
  match t.toList with
  | '-' :: ds => (digitsValue ds).map (fun n => -(n : Int))
  | ds => (digitsValue ds).map (fun n => (n : Int))

/-- The range of a signed 32-bit word (R96, R282). -/
abbrev inWordRange (n : Int) : Prop := -2147483648 ≤ n ∧ n ≤ 2147483647

/-- A numeric literal: a decimal integer in the range of a signed 32-bit word (R96). -/
def numericLiteral (t : String) : Option Int :=
  match integerOf t with
  | some n => if inWordRange n then some n else none
  | none => none

/-- The decimal string of an integer, with a leading `-` when negative (R161). -/
def decimalText (n : Int) : String :=
  String.ofList (if n < 0 then '-' :: Nat.toDigits 10 n.natAbs else Nat.toDigits 10 n.natAbs)

end Sys2Proof.Asm
end

