-- ==== Sys2Proof/Machine/SymbolTable.lean ====
section
/-! DEFINITION. The assembler's first pass, the symbol table builder (40_symbol_table.md), under the
strict label rule (R124; `label_rule = lenient` has no rules, 93_implementation_defined.md U8). -/

namespace Sys2Proof.Asm

/-- The nine names and the mnemonic each stands for (30_encoding.md R84). -/
def nameTable : List (List Char × Mnemonic) :=
  [("add".toList, .add), ("nand".toList, .nand), ("lw".toList, .lw), ("sw".toList, .sw),
   ("beq".toList, .beq), ("jalr".toList, .jalr), ("halt".toList, .halt), ("noop".toList, .noop),
   (".fill".toList, .fill)]

/-- The mnemonic a name stands for, in any letter case (R95, R141). -/
def mnemonicOf (t : String) : Option Mnemonic := nameTable.lookup (lowercase t)

/-- A letter: `A` to `Z` or `a` to `z` (R121). -/
def isLetter (c : Char) : Bool := ('A' ≤ c ∧ c ≤ 'Z') ∨ ('a' ≤ c ∧ c ≤ 'z')

/-- A letter or a digit `0` to `9` (R124). -/
def isLetterOrDigit (c : Char) : Bool := isLetter c ∨ ('0' ≤ c ∧ c ≤ '9')

/-- At most 6 characters, the first a letter (R121). -/
def lengthAndFirstOk (t : String) : Bool :=
  decide (t.toList.length ≤ Config.labelMaxLength) && (t.toList.head?.any isLetter)

/-- Every character a letter or a digit (R124). -/
def charsetOk (t : String) : Bool := t.toList.all isLetterOrDigit

/-- Purely numeric, or one of the nine names in any letter case (R123). -/
def reservedOrNumeric (t : String) : Bool := t.toList.all Char.isDigit || (mnemonicOf t).isSome

/-- The checks on one non-empty label, in the order of R126 and R128. -/
def checkLabel (sym : SymTab) (i : Nat) (t : String) : Except AsmError Unit :=
  if !lengthAndFirstOk t then .error ⟨.illegalLabel, t, i, none⟩
  else if !charsetOk t then .error ⟨.illegalLabel, t, i, none⟩
  else if (sym.lookup t).isSome then .error ⟨.duplicateLabel, t, i, none⟩
  else if reservedOrNumeric t then .error ⟨.illegalLabel, t, i, none⟩
  else .ok ()

/-- Pass 1 from line index `i` on, with the bindings made so far. A line advances the address whether
or not it carries a label (R125, R128). -/
def buildFrom (sym : SymTab) (i : Nat) : List Line → Except AsmError SymTab
  | [] => .ok sym
  | l :: rest =>
    match l.label with
    | none => buildFrom sym (i + 1) rest
    | some t =>
      if t = "" then buildFrom sym (i + 1) rest
      else
        match checkLabel sym i t with
        | .error e => .error e
        | .ok _ => buildFrom ((t, i) :: sym) (i + 1) rest

/-- `build_symbols(L)` (R128). -/
def buildSymbols (program : List Line) : Except AsmError SymTab := buildFrom [] 0 program

end Sys2Proof.Asm
end

