-- ==== Sys2Proof/Machine/Encoder.lean ====
section
/-! DEFINITION. The assembler's second pass, the encoder, and the two passes together
(41_encoder.md R140 to R163). -/

namespace Sys2Proof.Asm

/-- The opcode of an instruction's mnemonic; `.fill` has none (30_encoding.md R84). -/
def opcodeNumber : Mnemonic → Option Nat
  | .add => some 0
  | .nand => some 1
  | .lw => some 2
  | .sw => some 3
  | .beq => some 4
  | .jalr => some 5
  | .halt => some 6
  | .noop => some 7
  | .fill => none

/-- `resolve(t)` for a token of line `i`: numeric literal first, then label, absolute (R142, R143). -/
def resolve (sym : SymTab) (i : Nat) (t : String) : Except AsmError Int :=
  match numericLiteral t with
  | some n => .ok n
  | none =>
    match sym.lookup t with
    | some a => .ok (a : Int)
    | none => .error ⟨.undefinedLabel, t, i, none⟩

/-- A register field: in [0, 7], else `OverflowingField` (R144). -/
def registerField (i : Nat) (t : String) (v : Int) : Except AsmError Nat :=
  if 0 ≤ v ∧ v ≤ 7 then .ok v.toNat else .error ⟨.overflowingField, t, i, some (0, 7)⟩

/-- An offset field: in [−32768, 32767] before masking, else `OverflowingField` (R147 to R149). -/
def offsetFieldOf (i : Nat) (t : String) (o : Int) : Except AsmError Nat :=
  if offsetInRange o then .ok (offsetField o)
  else .error ⟨.overflowingField, t, i, some (-32768, 32767)⟩

/-- No token may follow those the format takes (R158). -/
def noExcess (i : Nat) : List String → Except AsmError Unit
  | [] => .ok ()
  | t :: _ => .error ⟨.unknownInstruction, t, i, none⟩

/-- The error of a line with too few operands, naming the mnemonic as written (R157, R307). -/
def missingOperand (i : Nat) (written : String) : AsmError :=
  ⟨.unknownInstruction, written, i, none⟩

/-- `halt` and `noop` (R151). -/
def encodeOType (op i : Nat) (ops : List String) : Except AsmError Word := do
  noExcess i ops
  pure (pack op 0 0 0)

/-- `.fill` (R145). -/
def encodeFill (sym : SymTab) (i : Nat) (written : String) :
    List String → Except AsmError Word
  | t0 :: rest => do
    let v ← resolve sym i t0
    noExcess i rest
    pure (wrap32 v)
  | _ => .error (missingOperand i written)

/-- `jalr` (R150). -/
def encodeJType (op : Nat) (sym : SymTab) (i : Nat) (written : String) :
    List String → Except AsmError Word
  | t0 :: t1 :: rest => do
    let v0 ← resolve sym i t0
    let v1 ← resolve sym i t1
    let a ← registerField i t0 v0
    let b ← registerField i t1 v1
    noExcess i rest
    pure (pack op a b 0)
  | _ => .error (missingOperand i written)

/-- `add` and `nand` (R146). -/
def encodeRType (op : Nat) (sym : SymTab) (i : Nat) (written : String) :
    List String → Except AsmError Word
  | t0 :: t1 :: t2 :: rest => do
    let v0 ← resolve sym i t0
    let v1 ← resolve sym i t1
    let v2 ← resolve sym i t2
    let a ← registerField i t0 v0
    let b ← registerField i t1 v1
    let d ← registerField i t2 v2
    noExcess i rest
    pure (pack op a b (d % 8))
  | _ => .error (missingOperand i written)

/-- The offset of `lw` and `sw`: the token's value, absolute for a label (R147). -/
def absoluteOffset (_i : Nat) (_t : String) (v : Int) : Int := v

/-- The offset of `beq`: a literal stands as written, a label is made PC-relative (R148). -/
def branchOffset (i : Nat) (t : String) (v : Int) : Int :=
  if (numericLiteral t).isSome then v else v - ((i : Int) + 1)

/-- `lw`, `sw` and `beq`, which differ in how the third token gives the offset (R147, R148). -/
def encodeIType (op : Nat) (offset : Nat → String → Int → Int) (sym : SymTab) (i : Nat)
    (written : String) : List String → Except AsmError Word
  | t0 :: t1 :: t2 :: rest => do
    let v0 ← resolve sym i t0
    let v1 ← resolve sym i t1
    let v2 ← resolve sym i t2
    let a ← registerField i t0 v0
    let b ← registerField i t1 v1
    let field ← offsetFieldOf i t2 (offset i t2 v2)
    noExcess i rest
    pure (pack op a b field)
  | _ => .error (missingOperand i written)

/-- `encode_line(i, line, sym)` (R159, R162). -/
def encodeLine (sym : SymTab) (i : Nat) (l : Line) : Except AsmError Word :=
  match l.mnemonic with
  | none => .error ⟨.unknownInstruction, "", i, none⟩
  | some t =>
    match mnemonicOf t with
    | none => .error ⟨.unknownInstruction, t, i, none⟩
    | some .add => encodeRType 0 sym i t l.operands
    | some .nand => encodeRType 1 sym i t l.operands
    | some .lw => encodeIType 2 absoluteOffset sym i t l.operands
    | some .sw => encodeIType 3 absoluteOffset sym i t l.operands
    | some .beq => encodeIType 4 branchOffset sym i t l.operands
    | some .jalr => encodeJType 5 sym i t l.operands
    | some .halt => encodeOType 6 i l.operands
    | some .noop => encodeOType 7 i l.operands
    | some .fill => encodeFill sym i t l.operands

/-- Pass 2 from line index `i` on: every line's word in order, or the first error (R140, R162). -/
def encodeFrom (sym : SymTab) (i : Nat) : List Line → Except AsmError (List Word)
  | [] => .ok []
  | l :: rest => do
    let w ← encodeLine sym i l
    let ws ← encodeFrom sym (i + 1) rest
    pure (w :: ws)

/-- `assemble(L)`: all of pass 1, then pass 2; the whole list of words or one error (R127, R162, R163). -/
def assemble (program : List Line) : Except AsmError (List Word) := do
  let sym ← buildSymbols program
  encodeFrom sym 0 program

/-- The assembler's output: the signed decimal string of each word, in order (R161). -/
def outputLines (words : List Word) : List String := words.map (fun w => decimalText (s32 w))

end Sys2Proof.Asm
end

