-- ==== Sys2Proof/Machine/FrontEnd.lean ====
section
/-! DEFINITION. The lexical front end as far as 30_encoding.md R94 and R97 state it: comments, blank
lines, fields and the label-or-mnemonic test (log entry 9). Tokenizing is outside the core
(00_scope.md R4); this file feeds `Asm.assemble`. -/

namespace Sys2Proof.Asm

/-- The line up to its comment, which begins at the first `#` or `//` (R94). -/
def stripComment : List Char → List Char
  | [] => []
  | '#' :: _ => []
  | '/' :: '/' :: _ => []
  | c :: rest => c :: stripComment rest

/-- A field being read, if it has any character yet. -/
def closeField (acc : List Char) : List String := if acc = [] then [] else [String.ofList acc]

/-- The fields of a line, separated by white space (R94). -/
def splitFields (acc : List Char) : List Char → List String
  | [] => closeField acc
  | c :: rest =>
    if c.isWhitespace then closeField acc ++ splitFields [] rest else splitFields (acc ++ [c]) rest

/-- The parsed line of a line's fields; `none` for a blank or comment-only line, which is skipped and
takes no address. The first token is the label iff it is not one of the nine names (R94, R97). -/
def parseFields : List String → Option Line
  | [] => none
  | t :: rest =>
    if (mnemonicOf t).isSome then some ⟨none, some t, rest⟩ else some ⟨some t, rest.head?, rest.tail⟩

/-- One source line. -/
def parseLine (text : String) : Option Line := parseFields (splitFields [] (stripComment text.toList))

/-- The lines that reach the core, in order (R94, R97). -/
def parseProgram (source : List String) : List Line := source.filterMap parseLine

end Sys2Proof.Asm
end

