-- ==== Sys2Proof/Machine/Loader.lean ====
section
/-! DEFINITION. What the host does before the first step: image load and register preload
(48_host_interface.md R280 to R283, R288, R290; 70_reset_and_hazards.md R330). -/

namespace Sys2Proof.Machine

/-- Why an image is refused at load. No machine state results (R281, R282). -/
inductive LoadError where
  /-- A line of the image text is not a decimal integer (R281). -/
  | nonIntegerLine (line : Nat)
  /-- An integer outside [−2^31, 2^31 − 1] (R282). -/
  | integerOutOfRange (value : Int)
  /-- More than 65536 words (R282). -/
  | imageTooLong (length : Nat)
deriving DecidableEq, Repr

/-- The cells of an image placed from address `a` on, in canonical form (R280). -/
def imageCells (a : Nat) : List Int → Memory
  | [] => []
  | n :: rest =>
    if wrap32 n = Config.emptyCell then imageCells (a + 1) rest
    else (a, wrap32 n) :: imageCells (a + 1) rest

/-- The first integer of an image that no word holds (R282). -/
def firstOutOfRange (image : List Int) : Option Int :=
  image.find? (fun n => !decide (Asm.inWordRange n))

/-- `load(I)` on the machine right after reset (R280, R282, R290). The first integer out of range is
answered before the length is looked at: the model's choice (log entry 13). -/
def load (image : List Int) : Except LoadError State :=
  match firstOutOfRange image with
  | some n => .error (.integerOutOfRange n)
  | none =>
    if image.length ≤ Config.memSize then
      .ok { State.reset with mem := imageCells 0 image, nloaded := image.length }
    else .error (.imageTooLong image.length)

/-- The image of a text with one decimal integer a line, from line index `i` on (R281). -/
def readImage (i : Nat) : List String → Except LoadError (List Int)
  | [] => .ok []
  | t :: rest => do
    match Asm.integerOf t with
    | none => .error (.nonIntegerLine i)
    | some n =>
      let ns ← readImage (i + 1) rest
      pure (n :: ns)

/-- A load from the image text (R281, R282). Every line is read before any integer's range is looked at, so
where a text holds both errors the non-integer line is the one answered, even if it comes later: the
model's choice (log entry 13). -/
def loadText (lines : List String) : Except LoadError State := do
  let image ← readImage 0 lines
  load image

/-- `preload(r, v)`: registers 1 to 7 only, and only before the first step (R288, R290). -/
def preload (r : Reg) (v : Word) (s : State) : Option State :=
  if r = 0 ∨ s.executed ≠ 0 then none else some (s.writeReg r v)

end Sys2Proof.Machine
end

