-- ==== Sys2Proof/Machine/Run.lean ====
section
/-! DEFINITION. The run loop and what the observer reads (47_engine.md R254 to R256;
48_host_interface.md R284 to R286, R289). -/

namespace Sys2Proof.Machine

/-- What the core exposes at an emission point (R284). Every other field of `State` can be read between
steps too (R290); how an emission is printed is outside the core. -/
structure Emission where
  /-- The program counter, read as a signed integer. -/
  pc : Int
  /-- The memory contents, bounded to the number of loaded words. -/
  mem : List Word
  /-- All eight registers. -/
  regs : Vector Word 8
  /-- The halted flag. -/
  halted : Bool
  /-- On halt, the total instructions executed. -/
  executed : Option Nat
  /-- The diagnostic of a controlled halt. -/
  fault : FaultRecord
deriving DecidableEq, Repr

/-- `emit(S)` as a value; it changes no state (R255, R284). -/
def emit (s : State) : Emission where
  pc := s32 s.pc
  mem := (List.range s.nloaded).map s.memRead
  regs := Vector.ofFn s.readReg
  halted := s.halted
  executed := if s.halted then some s.executed else none
  fault := s.fault

/-- The run loop with fuel: the emissions, first the start state's and then one after each step, and the
last state (R255). A run that is not halted when its fuel ends has not ended (R256, R340). -/
def run : Nat → State → List Emission × State
  | 0, s => ([emit s], s)
  | n + 1, s =>
    if s.halted then ([emit s], s)
    else
      match step s with
      | .next t => (emit s :: (run n t).1, (run n t).2)
      | .fault _ => ([emit s], s)
      | .refused _ => ([emit s], s)

end Sys2Proof.Machine
end

