-- ==== Sys2Proof/Safety.lean ====
section
/-! DEFINITION. What claims about runs speak of: the ends of a run (47_engine.md R256), the states the
invariants of 10_state.md R35 rule in, and a safe run. -/

namespace Sys2Proof.Machine

/-- A run has ended (R256). -/
abbrev State.ended (s : State) : Prop := s.halted = true

/-- A run has ended normally: by HALT, or by the manufactured HALT (R256). -/
abbrev State.endedNormally (s : State) : Prop := s.halted = true ∧ s.fault = .none

/-- A run has ended by a fault (R256); such a state is never a success (R304). -/
abbrev State.endedByFault (s : State) : Prop := s.fault ≠ .none

/-- A fault record a machine can hold: none, or an effective address outside memory and within the
bounds of R28; `IllegalOpcode` is unreachable (R186). -/
def FaultRecord.possible : FaultRecord → Prop
  | .none => True
  | .invalidAddress ea =>
    ¬ (0 ≤ ea ∧ ea ≤ 65535) ∧ -2147516416 ≤ ea ∧ ea ≤ 2147516414
  | .illegalOpcode _ => False

/-- The invariants of 10_state.md R35 that speak of one state, with the canonical form of memory, the
size of the image (R30, R282) and the values a fault record takes (R28, R186). -/
structure State.Inv (s : State) : Prop where
  /-- R35 (a). -/
  zero : s.regs[0] = 0#32
  /-- R35 (c). -/
  faultHalts : s.fault ≠ .none → s.halted = true
  /-- R28, R186. -/
  faultPossible : s.fault.possible
  /-- Memory is in its canonical form (R29). -/
  memWf : s.mem.wf
  /-- R30. -/
  loadedFits : s.nloaded ≤ Config.memSize

/-- A run of `k` steps that never ends by a fault. -/
def safeFor (s : State) (k : Nat) : Prop := ∀ n, n ≤ k → (run n s).2.fault = .none

end Sys2Proof.Machine
end

