-- ==== Sys2Proof/Certificates/Slice0/Obligations.lean ====
section
/-! DEFINITION. The statements for the provers. Each docstring names the rule it formalises; OBLIGATIONS.json
holds the rest. `x[r]` is written `s.readReg r` where it is read and `s.regs[r]` where it is a cell of the
register file; a frame is written `t = { s with … }`, which says that every other field is unchanged. -/

open Sys2Proof Sys2Proof.Machine

/-! ### Encoding and decoding -/

/-- R85: the decoder's fields are the shift-and-mask readings of the word's bits. -/
def Obligations.FieldsAreShiftedAndMasked : Prop :=
  ∀ w : Word,
    opcodeOf w = (u32 w >>> 22) &&& 7 ∧
    (regAOf w).val = (u32 w >>> 19) &&& 7 ∧
    (regBOf w).val = (u32 w >>> 16) &&& 7 ∧
    (destRegOf w).val = u32 w &&& 7 ∧
    offsetOf w = (w.extractLsb' 0 16).toInt

/-- R90, R186: every word decodes to one of the eight instructions, with every field in range; the
defensive arm of R185 is dead. -/
def Obligations.EveryWordDecodesToAnInstruction : Prop :=
  ∀ w : Word, ∃ i, decode w = .instr i ∧ i.isInstruction = true ∧ i.wellFormed = true

/-- R89: the decode mask, and that only the bits of the fields a format uses matter. -/
def Obligations.UnusedBitsAreIgnored : Prop :=
  (∀ (w : Word) (k : Nat), k < 8 →
    (opcodeOf w = k ↔ w &&& 0x01C00000#32 = BitVec.ofNat 32 (k <<< 22))) ∧
  ∀ v w : Word,
    (opcodeOf w < 2 → v &&& 0x01FF0007#32 = w &&& 0x01FF0007#32 → decode v = decode w) ∧
    (2 ≤ opcodeOf w ∧ opcodeOf w < 5 →
      v &&& 0x01FFFFFF#32 = w &&& 0x01FFFFFF#32 → decode v = decode w) ∧
    (opcodeOf w = 5 → v &&& 0x01FF0000#32 = w &&& 0x01FF0000#32 → decode v = decode w) ∧
    (5 < opcodeOf w → v &&& 0x01C00000#32 = w &&& 0x01C00000#32 → decode v = decode w)

/-- R93: decoding an encoded well-formed instruction gives it back; the converse holds exactly for
canonical words. -/
def Obligations.DecodeAndEncodeRoundTrip : Prop :=
  (∀ i : Instr, i.isInstruction = true → i.wellFormed = true → decode (encode i) = .instr i) ∧
  ∀ (w : Word) (i : Instr), decode w = .instr i → (encode i = w ↔ isCanonical w = true)

/-- R88: the encoder emits canonical words only, all below 2^25. -/
def Obligations.EncodedInstructionsAreCanonical : Prop :=
  ∀ i : Instr, i.isInstruction = true → isCanonical (encode i) = true ∧ u32 (encode i) < 33554432

/-- R187: words of the spec's table of decode examples. -/
def Obligations.SampleWordsDecode : Prop :=
  decode 655363#32 = .instr (.add 1 2 3) ∧
  decode 4784130#32 = .instr (.nand 1 1 2) ∧
  decode 8454150#32 = .instr (.lw 0 1 6) ∧
  decode 12713983#32 = .instr (.sw 0 1 (-1)) ∧
  decode 16842749#32 = .instr (.beq 0 0 (-3)) ∧
  decode 23527424#32 = .instr (.jalr 4 7) ∧
  decode 25165824#32 = .instr .halt ∧
  decode 29360128#32 = .instr .noop ∧
  decode 0#32 = .instr (.add 0 0 0) ∧
  decode 0xFFFFFFFF#32 = .instr .noop ∧
  decode 33554432#32 = .instr (.add 0 0 0)

/-! ### The executors: what each instruction does, and its frame -/

/-- R200. -/
def Obligations.AddWritesWrappedSum : Prop :=
  ∀ (a b d : Reg) (s : State), ∃ t, exec (.add a b d) s = .next t ∧
    (∀ k : Reg, t.regs[k] =
      if k = d ∧ d ≠ 0 then wrap32 (s32 (s.readReg a) + s32 (s.readReg b)) else s.regs[k]) ∧
    t = { s with regs := t.regs }

/-- R200 cases a and e: the low 32 bits of the true sum, under either signedness, and the true sum when
it fits. -/
def Obligations.AddIsTheSumModuloTwoToThe32 : Prop :=
  ∀ (a b d : Reg) (s : State), d ≠ 0 → ∃ t, exec (.add a b d) s = .next t ∧
    u32 t.regs[d] = (u32 (s.readReg a) + u32 (s.readReg b)) % 2 ^ 32 ∧
    (-2147483648 ≤ s32 (s.readReg a) + s32 (s.readReg b) ∧
      s32 (s.readReg a) + s32 (s.readReg b) ≤ 2147483647 →
      s32 t.regs[d] = s32 (s.readReg a) + s32 (s.readReg b)) ∧
    t.halted = s.halted ∧ t.fault = s.fault

/-- R201, bit by bit. -/
def Obligations.NandWritesComplementOfAnd : Prop :=
  ∀ (a b d : Reg) (s : State), ∃ t, exec (.nand a b d) s = .next t ∧
    (d ≠ 0 → ∀ j, j < 32 → (t.regs[d]).getLsbD j =
      !((s.readReg a).getLsbD j && (s.readReg b).getLsbD j)) ∧
    (∀ k : Reg, k ≠ d ∨ d = 0 → t.regs[k] = s.regs[k]) ∧
    t = { s with regs := t.regs }

/-- R210, the effective address in memory. -/
def Obligations.LwLoadsTheAddressedCell : Prop :=
  ∀ (a b : Reg) (o : Int) (s : State),
    0 ≤ s32 (s.readReg a) + o → s32 (s.readReg a) + o ≤ 65535 →
    ∃ t, exec (.lw a b o) s = .next t ∧
      (∀ k : Reg, t.regs[k] =
        if k = b ∧ b ≠ 0 then Memory.read s.mem (s32 (s.readReg a) + o).toNat else s.regs[k]) ∧
      t = { s with regs := t.regs }

/-- R210, the effective address outside memory; regB may be register 0 (case a). -/
def Obligations.LwOutsideMemoryHalts : Prop :=
  ∀ (a b : Reg) (o : Int) (s : State),
    ¬ (0 ≤ s32 (s.readReg a) + o ∧ s32 (s.readReg a) + o ≤ 65535) →
    exec (.lw a b o) s =
      .next { s with halted := true, fault := .invalidAddress (s32 (s.readReg a) + o) }

/-- R212, the effective address in memory. -/
def Obligations.SwStoresToTheAddressedCell : Prop :=
  ∀ (a b : Reg) (o : Int) (s : State),
    0 ≤ s32 (s.readReg a) + o → s32 (s.readReg a) + o ≤ 65535 →
    ∃ t, exec (.sw a b o) s = .next t ∧
      (∀ c : Nat, Memory.read t.mem c =
        if c = (s32 (s.readReg a) + o).toNat then s.readReg b else Memory.read s.mem c) ∧
      t = { s with mem := t.mem }

/-- R212, the effective address outside memory. -/
def Obligations.SwOutsideMemoryHalts : Prop :=
  ∀ (a b : Reg) (o : Int) (s : State),
    ¬ (0 ≤ s32 (s.readReg a) + o ∧ s32 (s.readReg a) + o ≤ 65535) →
    exec (.sw a b o) s =
      .next { s with halted := true, fault := .invalidAddress (s32 (s.readReg a) + o) }

/-- R214: the staged next program counter is overridden when all 32 bits agree, and stands otherwise. -/
def Obligations.BeqOverridesTheStagedPcWhenEqual : Prop :=
  ∀ (a b : Reg) (o : Int) (s : State), exec (.beq a b o) s =
    .next { s with
      npc := if s.readReg a = s.readReg b then wrap32 (s32 s.pc + 1 + o) else s.npc }

/-- R230: the link, the jump, and the suppressed jump when both fields name one register. -/
def Obligations.JalrLinksAndJumps : Prop :=
  ∀ (a b : Reg) (s : State), ∃ t, exec (.jalr a b) s = .next t ∧
    t.npc = (if a = b then s.npc else s.readReg a) ∧
    (∀ k : Reg, t.regs[k] = if k = b ∧ b ≠ 0 then wrap32 (s32 s.pc + 1) else s.regs[k]) ∧
    t = { s with regs := t.regs, npc := t.npc }

/-- R240: the executor's part, and the whole step in which a HALT executes. -/
def Obligations.HaltSetsTheFlagAndItsStepIsWhole : Prop :=
  (∀ s : State, exec .halt s = .next { s with halted := true }) ∧
  ∀ s : State, s.halted = false → s.regs[0] = 0#32 → decode s.fetch = .instr .halt →
    ∃ t, step s = .next t ∧ s32 t.pc = (s32 s.pc + 1) % 65536 ∧
      t = { s with pc := t.pc, npc := t.pc, executed := s.executed + 1, halted := true }

/-- R241: the executor's part, and the whole step in which a NOOP executes. -/
def Obligations.NoopOnlyAdvances : Prop :=
  (∀ s : State, exec .noop s = .next s) ∧
  ∀ s : State, s.halted = false → s.regs[0] = 0#32 → decode s.fetch = .instr .noop →
    ∃ t, step s = .next t ∧ s32 t.pc = (s32 s.pc + 1) % 65536 ∧
      t = { s with pc := t.pc, npc := t.pc, executed := s.executed + 1 }

/-- R92 and the table's row `.fill`: a raw word always runs, and runs as the instruction its bits decode
to. Giving the row a meaning of its own is the model's choice (log entry 2). -/
def Obligations.FillWordRunsAsItDecodes : Prop :=
  ∀ (v : Word) (s : State), ∃ i t, decode v = .instr i ∧ i.isInstruction = true ∧
    exec (.fill v) s = .next t ∧ exec i s = .next t

/-! ### The step -/

/-- R250: the seven parts of a step around the decoded instruction's executor. -/
def Obligations.StepRunsTheDecodedInstruction : Prop :=
  ∀ (s : State) (i : Instr), s.halted = false → decode s.fetch = .instr i →
    ∃ u, exec i { s with npc := wrap32 ((s32 s.pc + 1) % 65536) } = .next u ∧
      step s = .next { u with
        regs := u.regs.set 0 0#32, pc := u.npc, executed := u.executed + 1 }

/-- R250 and R254: a step exists on every running state, and on no halted one. -/
def Obligations.StepIsDefinedExactlyWhenRunning : Prop :=
  ∀ s : State, (∃ t, step s = .next t) ↔ s.halted = false

/-- R181, both arms, with R240 and R252: a fetch in memory reads the cell at the program counter; a fetch
outside gives the manufactured HALT word, and its step is a normal HALT whose final program counter is
back inside memory. -/
def Obligations.FetchReadsItsCellAndOutsideMemoryHalts : Prop :=
  (∀ s : State, 0 ≤ s32 s.pc → s32 s.pc ≤ 65535 →
    s.fetch = Memory.read s.mem (s32 s.pc).toNat) ∧
  ∀ s : State, s.halted = false → ¬ (0 ≤ s32 s.pc ∧ s32 s.pc ≤ 65535) →
    s.fetch = 25165824#32 ∧
    ∃ t, step s = .next t ∧ t.halted = true ∧ t.fault = s.fault ∧
      s32 t.pc = (s32 s.pc + 1) % 65536 ∧ t.executed = s.executed + 1 ∧ t.mem = s.mem ∧
      ∀ k : Reg, k ≠ 0 → t.regs[k] = s.regs[k]

/-- R252, row by row: the program counter after a step. -/
def Obligations.PcAfterStepFollowsTheTable : Prop :=
  ∀ s t : State, step s = .next t →
    match decode s.fetch with
    | .instr (.beq a b o) =>
      s32 t.pc = if s.readReg a = s.readReg b then s32 s.pc + 1 + o else (s32 s.pc + 1) % 65536
    | .instr (.jalr a b) =>
      s32 t.pc = if a = b then (s32 s.pc + 1) % 65536 else s32 (s.readReg a)
    | .instr (.fill _) => False
    | .instr _ => s32 t.pc = (s32 s.pc + 1) % 65536
    | .illegalOpcode _ => False

/-- R251: the staged value is inside memory, and wrapping 32-bit arithmetic gives the same. -/
def Obligations.StagedPcIsInMemory : Prop :=
  ∀ pc : Word, 0 ≤ s32 (nextSequential pc) ∧ s32 (nextSequential pc) ≤ 65535 ∧
    nextSequential pc = (pc + 1) &&& 0xFFFF#32

/-- R21 (a) to (d): register 0 reads as 0, a write to it changes nothing, forcing it after an executor is
redundant, and it is 0 after every step from any state. -/
def Obligations.RegisterZeroIsHardwired : Prop :=
  (∀ s : State, s.readReg 0 = 0#32) ∧
  (∀ (s : State) (v : Word), s.writeReg 0 v = s) ∧
  (∀ (i : Instr) (s t : State), s.regs[0] = 0#32 → exec i s = .next t → t.forceZero = t) ∧
  ∀ s t : State, step s = .next t → t.regs[0] = 0#32

/-- R22, the column of writes: which step may change which register. -/
def Obligations.OnlyTheDestinationRegisterChanges : Prop :=
  ∀ (s t : State) (k : Reg), step s = .next t → k ≠ 0 → t.regs[k] ≠ s.regs[k] →
    (∃ a b, decode s.fetch = .instr (.add a b k)) ∨
    (∃ a b, decode s.fetch = .instr (.nand a b k)) ∨
    (∃ a o, decode s.fetch = .instr (.lw a k o) ∧
      0 ≤ s32 (s.readReg a) + o ∧ s32 (s.readReg a) + o ≤ 65535) ∨
    (∃ a, decode s.fetch = .instr (.jalr a k))

/-- R51: SW writes one cell and no other instruction writes memory. -/
def Obligations.OnlySwChangesMemory : Prop :=
  ∀ (s t : State) (c : Nat), step s = .next t → Memory.read t.mem c ≠ Memory.read s.mem c →
    ∃ a b o, decode s.fetch = .instr (.sw a b o) ∧ s32 (s.readReg a) + o = (c : Int) ∧ c ≤ 65535

/-- R27, R301, R308, R309: what halts the machine, and what record it leaves. -/
def Obligations.OnlyHaltAndBadAddressesHalt : Prop :=
  ∀ s t : State, step s = .next t →
    (t.halted = true ↔ decode s.fetch = .instr .halt ∨
      ∃ a b o, (decode s.fetch = .instr (.lw a b o) ∨ decode s.fetch = .instr (.sw a b o)) ∧
        ¬ (0 ≤ s32 (s.readReg a) + o ∧ s32 (s.readReg a) + o ≤ 65535)) ∧
    (t.fault = s.fault ∨
      ∃ a b o, (decode s.fetch = .instr (.lw a b o) ∨ decode s.fetch = .instr (.sw a b o)) ∧
        ¬ (0 ≤ s32 (s.readReg a) + o ∧ s32 (s.readReg a) + o ≤ 65535) ∧
        t.fault = .invalidAddress (s32 (s.readReg a) + o))

/-- R302 (with R262): the whole faulting step, and how its own address is found again. -/
def Obligations.InvalidAddressStepIsAWholeStep : Prop :=
  ∀ (s : State) (a b : Reg) (o : Int), s.halted = false →
    (decode s.fetch = .instr (.lw a b o) ∨ decode s.fetch = .instr (.sw a b o)) →
    ¬ (0 ≤ s32 (s.readReg a) + o ∧ s32 (s.readReg a) + o ≤ 65535) →
    ∃ t, step s = .next t ∧
      t = { s with
        regs := s.regs.set 0 0#32, pc := t.pc, npc := t.pc, executed := s.executed + 1,
        halted := true, fault := .invalidAddress (s32 (s.readReg a) + o) } ∧
      s32 t.pc = (s32 s.pc + 1) % 65536 ∧ (s32 t.pc - 1) % 65536 = s32 s.pc

/-- R91: the zero word is `add 0 0 0`: its only effects are those of any step. -/
def Obligations.ZeroWordOnlyAdvances : Prop :=
  ∀ s : State, s.halted = false → s.regs[0] = 0#32 → s.fetch = 0#32 →
    step s = .next { s with
      pc := nextSequential s.pc, npc := nextSequential s.pc, executed := s.executed + 1 }

/-- R54, its last part: wrapping 32-bit address arithmetic gives the same verdict and the same cell. -/
def Obligations.WrappedAddressGivesTheSameVerdict : Prop :=
  ∀ (a : Reg) (o : Int) (s : State), offsetInRange o →
    cellOf (s.effectiveAddress a o) = cellOf (s32 (s.readReg a + wrap32 o))

/-- R63: a store is seen by the very next fetch. -/
def Obligations.StoredWordIsFetchedByTheNextStep : Prop :=
  ∀ (s t : State) (a b : Reg) (o : Int), step s = .next t → decode s.fetch = .instr (.sw a b o) →
    t.halted = false → s32 t.pc = s32 (s.readReg a) + o → t.fetch = s.readReg b

/-- R61: a load right after a store to the same address returns the stored word. -/
def Obligations.LoadReturnsTheStoredWord : Prop :=
  ∀ (s t u : State) (a b a' b' : Reg) (o o' : Int),
    step s = .next t → decode s.fetch = .instr (.sw a b o) →
    step t = .next u → decode t.fetch = .instr (.lw a' b' o') → b' ≠ 0 →
    s32 (s.readReg a) + o = s32 (t.readReg a') + o' → u.regs[b'] = s.readReg b

/-- R25, R26, R30: the old staged program counter, the counter and the loaded-word count affect no step. -/
def Obligations.HiddenStateAffectsNoStep : Prop :=
  ∀ (s t : State) (v : Word) (e n : Nat), step s = .next t →
    step { s with npc := v, executed := e, nloaded := n } =
      .next { t with executed := e + 1, nloaded := n }

/-- R35 with R28, R29 and R30: the machine's invariant is kept by every step, `nloaded` is constant and
`executed` counts. -/
def Obligations.EveryStepKeepsTheMachineInvariant : Prop :=
  ∀ s t : State, s.Inv → step s = .next t →
    t.Inv ∧ t.nloaded = s.nloaded ∧ t.executed = s.executed + 1

/-- The invariant of `EveryStepKeepsTheMachineInvariant` holds at reset. -/
def Obligations.ResetSatisfiesTheMachineInvariant : Prop := State.reset.Inv

/-! ### Reset, load and preload -/

/-- R34: the state right after reset. The registers' and the counter's zeros are the spec's decision D8,
and the staged program counter's is the model's (log entry 1). -/
def Obligations.ResetStateIsAsTabulated : Prop :=
  State.reset.pc = 0#32 ∧ (∀ k : Reg, State.reset.regs[k] = 0#32) ∧
  (∀ c : Nat, Memory.read State.reset.mem c = 0#32) ∧ State.reset.nloaded = 0 ∧
  State.reset.executed = 0 ∧ State.reset.halted = false ∧ State.reset.fault = .none ∧
  State.reset.npc = 0#32

/-- R280: what a load leaves. -/
def Obligations.LoadPlacesTheImageFromAddressZero : Prop :=
  ∀ (image : List Int) (s : State), load image = .ok s →
    (∀ (c : Nat) (n : Int), image[c]? = some n → Memory.read s.mem c = wrap32 n) ∧
    (∀ c : Nat, image.length ≤ c → Memory.read s.mem c = 0#32) ∧
    s = { State.reset with mem := s.mem, nloaded := image.length }

/-- R282: which images load. -/
def Obligations.ImageLoadsExactlyWhenItFits : Prop :=
  ∀ image : List Int, (∃ s, load image = .ok s) ↔
    (∀ n ∈ image, -2147483648 ≤ n ∧ n ≤ 2147483647) ∧ image.length ≤ 65536

/-- A loaded machine satisfies the invariant that every step keeps. -/
def Obligations.LoadedMachineSatisfiesTheInvariant : Prop :=
  ∀ (image : List Int) (s : State), load image = .ok s → s.Inv

/-- R288, R290: registers 1 to 7 can be preloaded before the first step, and nothing else. -/
def Obligations.PreloadSetsOneRegisterBeforeTheFirstStep : Prop :=
  ∀ (r : Reg) (v : Word) (s : State),
    (r ≠ 0 → s.executed = 0 → preload r v s = some { s with regs := s.regs.set r v }) ∧
    (r = 0 → preload r v s = none) ∧ (s.executed ≠ 0 → preload r v s = none)

/-! ### Runs and observation -/

/-- R255: a run starts in its start state, takes a step from each state that is not halted, emits the
start state and then the state after each step, the last being its final state, and goes on until it
halts or its fuel ends. -/
def Obligations.RunEmitsTheStartAndEveryStep : Prop :=
  ∀ (n : Nat) (s : State),
    (run 0 s).2 = s ∧
    (∀ k, (run k s).2.halted = false → step (run k s).2 = .next (run (k + 1) s).2) ∧
    (run n s).1.length + s.executed = (run n s).2.executed + 1 ∧
    (∀ k, k < (run n s).1.length → (run n s).1[k]? = some (emit (run k s).2)) ∧
    (run n s).1.getLast? = some (emit (run n s).2) ∧
    ((run n s).2.halted = false → (run n s).1.length = n + 1)

/-- R254: once a run has halted, more fuel changes nothing. -/
def Obligations.HaltedRunIsFinal : Prop :=
  ∀ (n m : Nat) (s : State), (run n s).2.halted = true → run (n + m) s = run n s

/-- R259 (c), R35 (d): `executed` counts the steps taken. -/
def Obligations.ExecutedCountsTheSteps : Prop :=
  ∀ (n : Nat) (s t : State), Host.Core.run Sys2Proof.core n s = .next t →
    t.executed = s.executed + n

/-- R301: only an LW or an SW can end a run by a fault. -/
def Obligations.RunsWithoutLoadsAndStoresAreSafe : Prop :=
  ∀ (s : State) (k : Nat), s.fault = .none →
    (∀ n, n ≤ k → ∀ a b o, decode (run n s).2.fetch ≠ .instr (.lw a b o) ∧
      decode (run n s).2.fetch ≠ .instr (.sw a b o)) →
    safeFor s k

/-- R284: the data an emission exposes. -/
def Obligations.EmissionExposesTheCoreState : Prop :=
  ∀ s : State,
    (emit s).pc = s32 s.pc ∧
    (emit s).mem.length = s.nloaded ∧
    (∀ c, c < s.nloaded → (emit s).mem[c]? = some (Memory.read s.mem c)) ∧
    (∀ k : Reg, (emit s).regs[k] = s.readReg k) ∧
    (emit s).halted = s.halted ∧
    (s.halted = true → (emit s).executed = some s.executed) ∧
    (emit s).fault = s.fault

/-! ### The assembler -/

/-- R125 (with R142): a label bound to line `i` is at address `i`, nothing else is in the table, and the
label resolves to `i` in the operands of every line. -/
def Obligations.LabelsNameTheirLines : Prop :=
  ∀ (program : List Asm.Line) (sym : Asm.SymTab), Asm.buildSymbols program = .ok sym →
    ∀ (t : String) (i : Nat), (sym.lookup t = some i ↔
      t ≠ "" ∧ ∃ l, program[i]? = some l ∧ l.label = some t) ∧
      ∀ (l : Asm.Line), program[i]? = some l → l.label = some t → t ≠ "" →
        ∀ j : Nat, Asm.resolve sym j t = .ok (i : Int)

/-- R121 to R124: pass 1 succeeds exactly when every label is legal and none is bound twice. -/
def Obligations.SymbolTableExistsExactlyWhenLabelsAreLegal : Prop :=
  ∀ program : List Asm.Line, (∃ sym, Asm.buildSymbols program = .ok sym) ↔
    (∀ l ∈ program, ∀ t, l.label = some t → t ≠ "" →
      t.toList.length ≤ 6 ∧ (∃ c cs, t.toList = c :: cs ∧ Asm.isLetter c = true) ∧
      (∀ c ∈ t.toList, Asm.isLetterOrDigit c = true) ∧ Asm.mnemonicOf t = none) ∧
    ((program.filterMap Asm.Line.label).filter (fun t => t ≠ "")).Nodup

/-- R146: the lines of `add` and `nand`. -/
def Obligations.RTypeLinesEncode : Prop :=
  ∀ (sym : Asm.SymTab) (i : Nat) (l : Asm.Line) (t : String) (w : Word), l.mnemonic = some t →
    (Asm.mnemonicOf t = some .add →
      (Asm.encodeLine sym i l = .ok w ↔ ∃ (t0 t1 t2 : String) (a b d : Reg),
        l.operands = [t0, t1, t2] ∧ Asm.resolve sym i t0 = .ok (a.val : Int) ∧
        Asm.resolve sym i t1 = .ok (b.val : Int) ∧ Asm.resolve sym i t2 = .ok (d.val : Int) ∧
        w = encode (.add a b d))) ∧
    (Asm.mnemonicOf t = some .nand →
      (Asm.encodeLine sym i l = .ok w ↔ ∃ (t0 t1 t2 : String) (a b d : Reg),
        l.operands = [t0, t1, t2] ∧ Asm.resolve sym i t0 = .ok (a.val : Int) ∧
        Asm.resolve sym i t1 = .ok (b.val : Int) ∧ Asm.resolve sym i t2 = .ok (d.val : Int) ∧
        w = encode (.nand a b d)))

/-- R147: the lines of `lw` and `sw`; a label is an absolute offset. -/
def Obligations.LoadAndStoreLinesEncode : Prop :=
  ∀ (sym : Asm.SymTab) (i : Nat) (l : Asm.Line) (t : String) (w : Word), l.mnemonic = some t →
    (Asm.mnemonicOf t = some .lw →
      (Asm.encodeLine sym i l = .ok w ↔ ∃ (t0 t1 t2 : String) (a b : Reg) (o : Int),
        l.operands = [t0, t1, t2] ∧ Asm.resolve sym i t0 = .ok (a.val : Int) ∧
        Asm.resolve sym i t1 = .ok (b.val : Int) ∧ Asm.resolve sym i t2 = .ok o ∧
        -32768 ≤ o ∧ o ≤ 32767 ∧ w = encode (.lw a b o))) ∧
    (Asm.mnemonicOf t = some .sw →
      (Asm.encodeLine sym i l = .ok w ↔ ∃ (t0 t1 t2 : String) (a b : Reg) (o : Int),
        l.operands = [t0, t1, t2] ∧ Asm.resolve sym i t0 = .ok (a.val : Int) ∧
        Asm.resolve sym i t1 = .ok (b.val : Int) ∧ Asm.resolve sym i t2 = .ok o ∧
        -32768 ≤ o ∧ o ≤ 32767 ∧ w = encode (.sw a b o)))

/-- R148: the lines of `beq`; a literal is the offset, a label is made PC-relative. -/
def Obligations.BranchLinesEncode : Prop :=
  ∀ (sym : Asm.SymTab) (i : Nat) (l : Asm.Line) (t : String) (w : Word), l.mnemonic = some t →
    Asm.mnemonicOf t = some .beq →
    (Asm.encodeLine sym i l = .ok w ↔ ∃ (t0 t1 t2 : String) (a b : Reg) (o : Int),
      l.operands = [t0, t1, t2] ∧ Asm.resolve sym i t0 = .ok (a.val : Int) ∧
      Asm.resolve sym i t1 = .ok (b.val : Int) ∧
      (Asm.numericLiteral t2 = some o ∨
        (Asm.numericLiteral t2 = none ∧
          ∃ target : Nat, sym.lookup t2 = some target ∧ o = (target : Int) - ((i : Int) + 1))) ∧
      -32768 ≤ o ∧ o ≤ 32767 ∧ w = encode (.beq a b o))

/-- R150, R151: the lines of `jalr`, `halt` and `noop`. -/
def Obligations.JumpAndOpcodeOnlyLinesEncode : Prop :=
  ∀ (sym : Asm.SymTab) (i : Nat) (l : Asm.Line) (t : String) (w : Word), l.mnemonic = some t →
    (Asm.mnemonicOf t = some .jalr →
      (Asm.encodeLine sym i l = .ok w ↔ ∃ (t0 t1 : String) (a b : Reg),
        l.operands = [t0, t1] ∧ Asm.resolve sym i t0 = .ok (a.val : Int) ∧
        Asm.resolve sym i t1 = .ok (b.val : Int) ∧ w = encode (.jalr a b))) ∧
    (Asm.mnemonicOf t = some .halt →
      (Asm.encodeLine sym i l = .ok w ↔ l.operands = [] ∧ w = encode .halt)) ∧
    (Asm.mnemonicOf t = some .noop →
      (Asm.encodeLine sym i l = .ok w ↔ l.operands = [] ∧ w = encode .noop))

/-- R145: `.fill` emits the value verbatim, with no range check and no masking. -/
def Obligations.FillLinesEmitTheValueVerbatim : Prop :=
  ∀ (sym : Asm.SymTab) (i : Nat) (l : Asm.Line) (t : String) (w : Word), l.mnemonic = some t →
    Asm.mnemonicOf t = some .fill →
    (Asm.encodeLine sym i l = .ok w ↔ ∃ (t0 : String) (v : Int),
      l.operands = [t0] ∧ Asm.resolve sym i t0 = .ok v ∧ w = wrap32 v)

/-- R148's law: a `beq r r target` assembled at address `i`, executed at that address, goes to the
label's address. -/
def Obligations.AssembledBranchReachesItsLabel : Prop :=
  ∀ (sym : Asm.SymTab) (i target : Nat) (l : Asm.Line) (m r label : String) (w : Word) (s : State),
    l.mnemonic = some m → Asm.mnemonicOf m = some .beq → l.operands = [r, r, label] →
    Asm.numericLiteral label = none → sym.lookup label = some target →
    Asm.encodeLine sym i l = .ok w →
    s.halted = false → s32 s.pc = (i : Int) → s.fetch = w →
    (∃ q : Reg, decode w = .instr (.beq q q ((target : Int) - ((i : Int) + 1)))) ∧
    ∃ u, step s = .next u ∧ s32 u.pc = (target : Int)

/-- R140: one word a line, each line's own encoding at its own address. -/
def Obligations.AssemblyEncodesEveryLineInOrder : Prop :=
  ∀ (program : List Asm.Line) (words : List Word), Asm.assemble program = .ok words →
    ∃ sym, Asm.buildSymbols program = .ok sym ∧ words.length = program.length ∧
      ∀ (i : Nat) (l : Asm.Line), program[i]? = some l →
        ∃ w, words[i]? = some w ∧ Asm.encodeLine sym i l = .ok w

/-- R126, R127, R140: the error reported is pass 1's, or else that of the first line that does not
encode. -/
def Obligations.FirstErrorIsReported : Prop :=
  ∀ (program : List Asm.Line) (e : Asm.AsmError), Asm.assemble program = .error e →
    Asm.buildSymbols program = .error e ∨
    ∃ sym, Asm.buildSymbols program = .ok sym ∧
      ∃ l, program[e.line]? = some l ∧ Asm.encodeLine sym e.line l = .error e ∧
        ∀ (j : Nat) (k : Asm.Line), j < e.line → program[j]? = some k →
          ∃ w, Asm.encodeLine sym j k = .ok w

/-- R283: the assembler's output is an image, and loads word for word. -/
def Obligations.AssembledImageLoadsWordForWord : Prop :=
  ∀ (program : List Asm.Line) (words : List Word), Asm.assemble program = .ok words →
    program.length ≤ 65536 →
    ∃ s, load (words.map s32) = .ok s ∧ s.nloaded = program.length ∧
      ∀ (i : Nat) (w : Word), words[i]? = some w → Memory.read s.mem i = w

/-- R161 with R281: the assembler's output text reads back as the image. -/
def Obligations.OutputTextReadsBackAsTheImage : Prop :=
  ∀ words : List Word, readImage 0 (Asm.outputLines words) = .ok (words.map s32)

/-- R94, R97: a line that is blank before its comment takes no address. What counts as white space is the
model's choice (log entry 9). -/
def Obligations.BlankLinesTakeNoAddress : Prop :=
  ∀ (source : List String) (text : String),
    (∀ c ∈ Asm.stripComment text.toList, c.isWhitespace = true) →
    Asm.parseProgram (text :: source) = Asm.parseProgram source
end

