-- ==== Sys2Proof/Laws/Encoding.lean ====
section
/-! SUPPORT. Each field of a packed word is the field that was packed, and the ranges of the decoder's
fields. -/

namespace Sys2Proof

theorem bits_lt (w : Word) (hi lo : Nat) : bits w hi lo < 2 ^ (hi + 1 - lo) :=
  Nat.mod_lt _ (by positivity)

/-! ### The fields as arithmetic on the unsigned reading -/

theorem opcodeOf_eq (w : Word) : opcodeOf w = u32 w / 4194304 % 8 := rfl

theorem regAOf_eq (w : Word) : regAOf w = Fin.ofNat 8 (u32 w / 524288 % 8) := rfl

theorem regBOf_eq (w : Word) : regBOf w = Fin.ofNat 8 (u32 w / 65536 % 8) := rfl

theorem destRegOf_eq (w : Word) : destRegOf w = Fin.ofNat 8 (u32 w % 8) := by
  simp [destRegOf, bits]

theorem offsetOf_eq (w : Word) : offsetOf w = sext16 (u32 w % 65536) := by
  simp [offsetOf, bits]

/-! ### Ranges -/

theorem opcodeOf_lt (w : Word) : opcodeOf w < 8 := bits_lt w 24 22

theorem sext16_range {v : Nat} (h : v < 65536) : offsetInRange (sext16 v) := by
  unfold sext16 offsetInRange
  split <;> omega

/-- The decoder's offset is in the range of the field (R85). -/
theorem offsetOf_range (w : Word) : offsetInRange (offsetOf w) := sext16_range (bits_lt w 15 0)

theorem sext16_offsetField {o : Int} (h : offsetInRange o) : sext16 (offsetField o) = o := by
  unfold sext16 offsetField offsetInRange at *
  split <;> omega

theorem offsetField_lt (o : Int) : offsetField o < 65536 := by unfold offsetField; omega

/-! ### A packed word's fields -/

section
variable {op a b rem : Nat} (hop : op < 8) (ha : a < 8) (hb : b < 8) (hr : rem < 65536)
include hop ha hb hr

theorem u32_pack : u32 (pack op a b rem) = op * 4194304 + a * 524288 + b * 65536 + rem := by
  simp only [pack, u32, BitVec.toNat_ofNat, Config.opcodeLow, Config.regALow, Config.regBLow]
  omega

theorem opcodeOf_pack : opcodeOf (pack op a b rem) = op := by
  rw [opcodeOf_eq, u32_pack hop ha hb hr]; omega

theorem regAOf_pack : regAOf (pack op a b rem) = Fin.ofNat 8 a := by
  rw [regAOf_eq, u32_pack hop ha hb hr]; congr 1; omega

theorem regBOf_pack : regBOf (pack op a b rem) = Fin.ofNat 8 b := by
  rw [regBOf_eq, u32_pack hop ha hb hr]; congr 1; omega

theorem destRegOf_pack : destRegOf (pack op a b rem) = Fin.ofNat 8 (rem % 8) := by
  rw [destRegOf_eq, u32_pack hop ha hb hr]; congr 1; omega

theorem offsetOf_pack : offsetOf (pack op a b rem) = sext16 rem := by
  rw [offsetOf_eq, u32_pack hop ha hb hr]; congr 1; omega

end

end Sys2Proof
end

