-- ==== Sys2Proof/Laws/Asm.lean ====
section
/-! SUPPORT. When each of the assembler's small checks succeeds, and the order of the encoder's parts,
for proofs about whole lines. -/

namespace Sys2Proof.Asm

/-- Two parts of a pass in a row succeed iff each does. -/
theorem bind_ok {α β : Type} {x : Except AsmError α} {f : α → Except AsmError β} {r : β} :
    (x >>= f) = .ok r ↔ ∃ a, x = .ok a ∧ f a = .ok r := by
  cases x <;> simp [bind, Except.bind]

@[simp] theorem registerField_ok {i : Nat} {t : String} {v : Int} {n : Nat} :
    registerField i t v = .ok n ↔ 0 ≤ v ∧ v ≤ 7 ∧ n = v.toNat := by
  unfold registerField; split <;> simp_all [eq_comm]

@[simp] theorem offsetFieldOf_ok {i : Nat} {t : String} {o : Int} {n : Nat} :
    offsetFieldOf i t o = .ok n ↔ offsetInRange o ∧ n = offsetField o := by
  unfold offsetFieldOf
  split
  · next h => exact ⟨fun e => ⟨h, (Except.ok.inj e).symm⟩, fun e => e.2 ▸ rfl⟩
  · next h => exact ⟨(nomatch ·), fun e => absurd e.1 h⟩

@[simp] theorem noExcess_ok {i : Nat} {ts : List String} {u : Unit} :
    noExcess i ts = .ok u ↔ ts = [] := by
  cases ts <;> simp [noExcess]

/-- A token resolves to its literal value, or else to its label's address (R142). -/
theorem resolve_ok {sym : SymTab} {i : Nat} {t : String} {v : Int} :
    resolve sym i t = .ok v ↔ numericLiteral t = some v ∨
      (numericLiteral t = none ∧ ∃ a : Nat, sym.lookup t = some a ∧ v = a) := by
  unfold resolve
  split
  · next n h => simp [h]
  · next h =>
    split
    · next a ha => simp [h, ha, eq_comm]
    · next ha => simp [h, ha]

/-- The words of a program are the encodings of its lines, one by one (R140). -/
theorem encodeFrom_ok_cons {sym : SymTab} {i : Nat} {l : Line} {rest : List Line} {ws : List Word} :
    encodeFrom sym i (l :: rest) = .ok ws ↔
      ∃ w ws', encodeLine sym i l = .ok w ∧ encodeFrom sym (i + 1) rest = .ok ws' ∧ ws = w :: ws' := by
  simp only [encodeFrom, bind_ok, pure, Except.pure, Except.ok.injEq]
  constructor
  · rintro ⟨w, hw, ws', hws, rfl⟩; exact ⟨w, ws', hw, hws, rfl⟩
  · rintro ⟨w, ws', hw, hws, rfl⟩; exact ⟨w, hw, ws', hws, rfl⟩

end Sys2Proof.Asm
end

