-- ==== Sys2Proof/Laws/Memory.lean ====
section
/-! SUPPORT. Memory's basic laws: what a read gives after each operation, and that every operation keeps
the canonical form `Memory.wf`. -/

namespace Sys2Proof.Machine

/-! ### Reading -/

theorem Memory.read_erase (m : Memory) (a b : Nat) :
    Memory.read (Memory.erase m a) b = if b = a then Config.emptyCell else Memory.read m b := by
  induction m with
  | nil => simp [Memory.erase, Memory.read]
  | cons c rest ih =>
    obtain ⟨k, v⟩ := c
    simp only [Memory.erase, List.filter_cons] at ih ⊢
    by_cases hk : k = a
    · subst hk
      simp only [ne_eq, not_true_eq_false, decide_false, Bool.false_eq_true, if_false, ih]
      by_cases hb : b = k
      · simp [hb]
      · simp [hb, Memory.read, Ne.symm hb]
    · simp only [ne_eq, hk, not_false_eq_true, decide_true, if_true, Memory.read, ih]
      by_cases hb : k = b
      · subst hb; simp [hk]
      · simp [hb]

theorem Memory.read_insert (m : Memory) (a b : Nat) (v : Word) :
    Memory.read (Memory.insert (Memory.erase m a) a v) b
      = if b = a then v else Memory.read (Memory.erase m a) b := by
  have h : ∀ c ∈ Memory.erase m a, c.1 ≠ a := by simp [Memory.erase]
  revert h
  generalize Memory.erase m a = e
  intro h
  induction e with
  | nil => simp [Memory.insert, Memory.read, eq_comm]
  | cons c rest ih =>
    obtain ⟨k, u⟩ := c
    have hk : k ≠ a := h (k, u) (by simp)
    have ih := ih fun c hc => h c (by simp [hc])
    simp only [Memory.insert]
    split
    · simp [Memory.read, eq_comm]
    · simp only [Memory.read, ih]
      by_cases hb : k = b
      · subst hb; simp [hk]
      · simp [hb]

/-- Reading after a write: the cell written gives the word, every other cell reads as before. It holds of
every list, canonical or not. -/
theorem Memory.read_write (m : Memory) (a b : Nat) (v : Word) :
    Memory.read (Memory.write m a v) b = if b = a then v else Memory.read m b := by
  unfold Memory.write
  split
  · next h => simp [Memory.read_erase, h]
  · rw [Memory.read_insert, Memory.read_erase]
    split <;> simp_all

@[simp] theorem Memory.read_write_same (m : Memory) (a : Nat) (v : Word) :
    Memory.read (Memory.write m a v) a = v := by simp [Memory.read_write]

theorem Memory.read_write_other (m : Memory) {a b : Nat} (v : Word) (h : b ≠ a) :
    Memory.read (Memory.write m a v) b = Memory.read m b := by simp [Memory.read_write, h]

/-! ### The canonical form -/

theorem Memory.wf_nil : Memory.wf [] := ⟨List.Pairwise.nil, fun _ hc => nomatch hc⟩

theorem Memory.wf_erase {m : Memory} (h : m.wf) (a : Nat) : (Memory.erase m a).wf :=
  ⟨h.1.filter _, fun c hc => h.2 c (List.mem_of_mem_filter hc)⟩

theorem Memory.mem_insert {m : Memory} {a : Nat} {v : Word} {c : Nat × Word} :
    c ∈ Memory.insert m a v ↔ c = (a, v) ∨ c ∈ m := by
  induction m with
  | nil => simp [Memory.insert]
  | cons d rest ih =>
    simp only [Memory.insert]
    split
    · simp
    · simp only [List.mem_cons, ih]; tauto

theorem Memory.wf_insert {m : Memory} (h : m.wf) {a : Nat} {v : Word} (ha : a < Config.memSize)
    (hv : v ≠ Config.emptyCell) (hnew : ∀ c ∈ m, c.1 ≠ a) : (Memory.insert m a v).wf := by
  refine ⟨?_, fun c hc => ?_⟩
  · induction m with
    | nil => simp [Memory.insert]
    | cons d rest ih =>
      obtain ⟨k, u⟩ := d
      obtain ⟨hk, hrest⟩ := List.pairwise_cons.mp h.1
      simp only [Memory.insert]
      split
      · next hlt =>
        refine List.pairwise_cons.mpr ⟨fun c hc => ?_, h.1⟩
        rcases List.mem_cons.mp hc with rfl | hc
        · exact hlt
        · exact hlt.trans (hk c hc)
      · next hge =>
        have hne : k ≠ a := hnew (k, u) (by simp)
        refine List.pairwise_cons.mpr ⟨fun c hc => ?_,
          ih ⟨hrest, fun c hc => h.2 c (by simp [hc])⟩ fun c hc => hnew c (by simp [hc])⟩
        rcases Memory.mem_insert.mp hc with rfl | hc
        · show k < a; omega
        · exact hk c hc
  · rcases Memory.mem_insert.mp hc with rfl | hc
    · exact ⟨ha, hv⟩
    · exact h.2 c hc

/-- A store inside memory keeps the canonical form. -/
theorem Memory.wf_write {m : Memory} (h : m.wf) {a : Nat} (ha : a < Config.memSize) (v : Word) :
    (Memory.write m a v).wf := by
  unfold Memory.write
  split
  · exact Memory.wf_erase h a
  · next hv => exact Memory.wf_insert (Memory.wf_erase h a) ha hv (by simp [Memory.erase])

theorem reset_mem_wf : State.reset.mem.wf := Memory.wf_nil

/-! ### The cells of an image -/

theorem imageCells_range {image : List Int} {a : Nat} {c : Nat × Word} (h : c ∈ imageCells a image) :
    a ≤ c.1 ∧ c.1 < a + image.length ∧ c.2 ≠ Config.emptyCell := by
  induction image generalizing a with
  | nil => simp [imageCells] at h
  | cons n rest ih =>
    simp only [imageCells] at h
    split at h
    · have := ih h; simp only [List.length_cons]; exact ⟨by omega, by omega, this.2.2⟩
    · next hn =>
      rcases List.mem_cons.mp h with rfl | h
      · simp only [List.length_cons]; exact ⟨le_rfl, by omega, hn⟩
      · have := ih h; simp only [List.length_cons]; exact ⟨by omega, by omega, this.2.2⟩

/-- What the cells of an image read as: the image's words in their places, 0 elsewhere. -/
theorem imageCells_read (image : List Int) (a c : Nat) :
    Memory.read (imageCells a image) c =
      if a ≤ c then (image[c - a]?.map wrap32).getD 0#32 else 0#32 := by
  induction image generalizing a with
  | nil => simp [imageCells, Memory.read]
  | cons n rest ih =>
    have head : Memory.read (imageCells a (n :: rest)) c =
        if c = a then wrap32 n else Memory.read (imageCells (a + 1) rest) c := by
      simp only [imageCells]
      split
      · next h =>
        by_cases hc : c = a
        · subst hc; simp [ih, h]
        · simp [hc]
      · simp [Memory.read, eq_comm]
    rw [head, ih]
    rcases Nat.lt_trichotomy c a with h | h | h
    · simp [show c ≠ a by omega, show ¬ a ≤ c by omega, show ¬ a + 1 ≤ c by omega]
    · simp [h]
    · have : c - a = c - (a + 1) + 1 := by omega
      simp [show c ≠ a by omega, show a ≤ c by omega, show a + 1 ≤ c by omega, this]

theorem imageCells_wf {image : List Int} (h : image.length ≤ Config.memSize) :
    (imageCells 0 image).wf := by
  refine ⟨?_, fun c hc => ?_⟩
  · clear h
    generalize (0 : Nat) = a
    induction image generalizing a with
    | nil => simp [imageCells]
    | cons n rest ih =>
      simp only [imageCells]
      split
      · exact ih _
      · exact List.pairwise_cons.mpr ⟨fun c hc => by have := imageCells_range hc; show a < c.1; omega, ih _⟩
  · have := imageCells_range hc
    exact ⟨by omega, this.2.2⟩

end Sys2Proof.Machine
end

