-- ==== Sys2Proof/Laws/State.lean ====
section
/-! SUPPORT. What each named update of `State` does to each field, so that no proof unfolds a record
update. -/

namespace Sys2Proof.Machine

variable (s : State)

/-! ### `State.writeReg` -/

@[simp] theorem State.writeReg_regs (r : Reg) (v : Word) : (s.writeReg r v).regs = if r = 0 then s.regs else s.regs.set r v := rfl
@[simp] theorem State.writeReg_pc (r : Reg) (v : Word) : (s.writeReg r v).pc = s.pc := rfl
@[simp] theorem State.writeReg_npc (r : Reg) (v : Word) : (s.writeReg r v).npc = s.npc := rfl
@[simp] theorem State.writeReg_executed (r : Reg) (v : Word) : (s.writeReg r v).executed = s.executed := rfl
@[simp] theorem State.writeReg_halted (r : Reg) (v : Word) : (s.writeReg r v).halted = s.halted := rfl
@[simp] theorem State.writeReg_fault (r : Reg) (v : Word) : (s.writeReg r v).fault = s.fault := rfl
@[simp] theorem State.writeReg_mem (r : Reg) (v : Word) : (s.writeReg r v).mem = s.mem := rfl
@[simp] theorem State.writeReg_nloaded (r : Reg) (v : Word) : (s.writeReg r v).nloaded = s.nloaded := rfl

/-! ### `State.memWrite` -/

@[simp] theorem State.memWrite_regs (a : Nat) (v : Word) : (s.memWrite a v).regs = s.regs := rfl
@[simp] theorem State.memWrite_pc (a : Nat) (v : Word) : (s.memWrite a v).pc = s.pc := rfl
@[simp] theorem State.memWrite_npc (a : Nat) (v : Word) : (s.memWrite a v).npc = s.npc := rfl
@[simp] theorem State.memWrite_executed (a : Nat) (v : Word) : (s.memWrite a v).executed = s.executed := rfl
@[simp] theorem State.memWrite_halted (a : Nat) (v : Word) : (s.memWrite a v).halted = s.halted := rfl
@[simp] theorem State.memWrite_fault (a : Nat) (v : Word) : (s.memWrite a v).fault = s.fault := rfl
@[simp] theorem State.memWrite_mem (a : Nat) (v : Word) : (s.memWrite a v).mem = Memory.write s.mem a v := rfl
@[simp] theorem State.memWrite_nloaded (a : Nat) (v : Word) : (s.memWrite a v).nloaded = s.nloaded := rfl

/-! ### `State.setNpc` -/

@[simp] theorem State.setNpc_regs (t : Word) : (s.setNpc t).regs = s.regs := rfl
@[simp] theorem State.setNpc_pc (t : Word) : (s.setNpc t).pc = s.pc := rfl
@[simp] theorem State.setNpc_npc (t : Word) : (s.setNpc t).npc = t := rfl
@[simp] theorem State.setNpc_executed (t : Word) : (s.setNpc t).executed = s.executed := rfl
@[simp] theorem State.setNpc_halted (t : Word) : (s.setNpc t).halted = s.halted := rfl
@[simp] theorem State.setNpc_fault (t : Word) : (s.setNpc t).fault = s.fault := rfl
@[simp] theorem State.setNpc_mem (t : Word) : (s.setNpc t).mem = s.mem := rfl
@[simp] theorem State.setNpc_nloaded (t : Word) : (s.setNpc t).nloaded = s.nloaded := rfl

/-! ### `State.stage` -/

@[simp] theorem State.stage_regs : (s.stage).regs = s.regs := rfl
@[simp] theorem State.stage_pc : (s.stage).pc = s.pc := rfl
@[simp] theorem State.stage_npc : (s.stage).npc = nextSequential s.pc := rfl
@[simp] theorem State.stage_executed : (s.stage).executed = s.executed := rfl
@[simp] theorem State.stage_halted : (s.stage).halted = s.halted := rfl
@[simp] theorem State.stage_fault : (s.stage).fault = s.fault := rfl
@[simp] theorem State.stage_mem : (s.stage).mem = s.mem := rfl
@[simp] theorem State.stage_nloaded : (s.stage).nloaded = s.nloaded := rfl

/-! ### `State.halt` -/

@[simp] theorem State.halt_regs : (s.halt).regs = s.regs := rfl
@[simp] theorem State.halt_pc : (s.halt).pc = s.pc := rfl
@[simp] theorem State.halt_npc : (s.halt).npc = s.npc := rfl
@[simp] theorem State.halt_executed : (s.halt).executed = s.executed := rfl
@[simp] theorem State.halt_halted : (s.halt).halted = true := rfl
@[simp] theorem State.halt_fault : (s.halt).fault = s.fault := rfl
@[simp] theorem State.halt_mem : (s.halt).mem = s.mem := rfl
@[simp] theorem State.halt_nloaded : (s.halt).nloaded = s.nloaded := rfl

/-! ### `State.controlledHalt` -/

@[simp] theorem State.controlledHalt_regs (why : FaultRecord) : (s.controlledHalt why).regs = s.regs := rfl
@[simp] theorem State.controlledHalt_pc (why : FaultRecord) : (s.controlledHalt why).pc = s.pc := rfl
@[simp] theorem State.controlledHalt_npc (why : FaultRecord) : (s.controlledHalt why).npc = s.npc := rfl
@[simp] theorem State.controlledHalt_executed (why : FaultRecord) : (s.controlledHalt why).executed = s.executed := rfl
@[simp] theorem State.controlledHalt_halted (why : FaultRecord) : (s.controlledHalt why).halted = true := rfl
@[simp] theorem State.controlledHalt_fault (why : FaultRecord) : (s.controlledHalt why).fault = why := rfl
@[simp] theorem State.controlledHalt_mem (why : FaultRecord) : (s.controlledHalt why).mem = s.mem := rfl
@[simp] theorem State.controlledHalt_nloaded (why : FaultRecord) : (s.controlledHalt why).nloaded = s.nloaded := rfl

/-! ### `State.raiseInvalidAddress` -/

@[simp] theorem State.raiseInvalidAddress_regs (ea : Int) : (s.raiseInvalidAddress ea).regs = s.regs := rfl
@[simp] theorem State.raiseInvalidAddress_pc (ea : Int) : (s.raiseInvalidAddress ea).pc = s.pc := rfl
@[simp] theorem State.raiseInvalidAddress_npc (ea : Int) : (s.raiseInvalidAddress ea).npc = s.npc := rfl
@[simp] theorem State.raiseInvalidAddress_executed (ea : Int) : (s.raiseInvalidAddress ea).executed = s.executed := rfl
@[simp] theorem State.raiseInvalidAddress_halted (ea : Int) : (s.raiseInvalidAddress ea).halted = true := rfl
@[simp] theorem State.raiseInvalidAddress_fault (ea : Int) : (s.raiseInvalidAddress ea).fault = .invalidAddress ea := rfl
@[simp] theorem State.raiseInvalidAddress_mem (ea : Int) : (s.raiseInvalidAddress ea).mem = s.mem := rfl
@[simp] theorem State.raiseInvalidAddress_nloaded (ea : Int) : (s.raiseInvalidAddress ea).nloaded = s.nloaded := rfl

/-! ### `State.raiseIllegalOpcode` -/

@[simp] theorem State.raiseIllegalOpcode_regs (op : Nat) : (s.raiseIllegalOpcode op).regs = s.regs := rfl
@[simp] theorem State.raiseIllegalOpcode_pc (op : Nat) : (s.raiseIllegalOpcode op).pc = s.pc := rfl
@[simp] theorem State.raiseIllegalOpcode_npc (op : Nat) : (s.raiseIllegalOpcode op).npc = s.npc := rfl
@[simp] theorem State.raiseIllegalOpcode_executed (op : Nat) : (s.raiseIllegalOpcode op).executed = s.executed := rfl
@[simp] theorem State.raiseIllegalOpcode_halted (op : Nat) : (s.raiseIllegalOpcode op).halted = true := rfl
@[simp] theorem State.raiseIllegalOpcode_fault (op : Nat) : (s.raiseIllegalOpcode op).fault = .illegalOpcode op := rfl
@[simp] theorem State.raiseIllegalOpcode_mem (op : Nat) : (s.raiseIllegalOpcode op).mem = s.mem := rfl
@[simp] theorem State.raiseIllegalOpcode_nloaded (op : Nat) : (s.raiseIllegalOpcode op).nloaded = s.nloaded := rfl

/-! ### `State.forceZero` -/

@[simp] theorem State.forceZero_regs : (s.forceZero).regs = s.regs.set 0 0#32 := rfl
@[simp] theorem State.forceZero_pc : (s.forceZero).pc = s.pc := rfl
@[simp] theorem State.forceZero_npc : (s.forceZero).npc = s.npc := rfl
@[simp] theorem State.forceZero_executed : (s.forceZero).executed = s.executed := rfl
@[simp] theorem State.forceZero_halted : (s.forceZero).halted = s.halted := rfl
@[simp] theorem State.forceZero_fault : (s.forceZero).fault = s.fault := rfl
@[simp] theorem State.forceZero_mem : (s.forceZero).mem = s.mem := rfl
@[simp] theorem State.forceZero_nloaded : (s.forceZero).nloaded = s.nloaded := rfl

/-! ### `State.commitPc` -/

@[simp] theorem State.commitPc_regs : (s.commitPc).regs = s.regs := rfl
@[simp] theorem State.commitPc_pc : (s.commitPc).pc = s.npc := rfl
@[simp] theorem State.commitPc_npc : (s.commitPc).npc = s.npc := rfl
@[simp] theorem State.commitPc_executed : (s.commitPc).executed = s.executed := rfl
@[simp] theorem State.commitPc_halted : (s.commitPc).halted = s.halted := rfl
@[simp] theorem State.commitPc_fault : (s.commitPc).fault = s.fault := rfl
@[simp] theorem State.commitPc_mem : (s.commitPc).mem = s.mem := rfl
@[simp] theorem State.commitPc_nloaded : (s.commitPc).nloaded = s.nloaded := rfl

/-! ### `State.count` -/

@[simp] theorem State.count_regs : (s.count).regs = s.regs := rfl
@[simp] theorem State.count_pc : (s.count).pc = s.pc := rfl
@[simp] theorem State.count_npc : (s.count).npc = s.npc := rfl
@[simp] theorem State.count_executed : (s.count).executed = s.executed + 1 := rfl
@[simp] theorem State.count_halted : (s.count).halted = s.halted := rfl
@[simp] theorem State.count_fault : (s.count).fault = s.fault := rfl
@[simp] theorem State.count_mem : (s.count).mem = s.mem := rfl
@[simp] theorem State.count_nloaded : (s.count).nloaded = s.nloaded := rfl

/-! ### `State.finish` -/

@[simp] theorem State.finish_regs : (s.finish).regs = s.regs.set 0 0#32 := rfl
@[simp] theorem State.finish_pc : (s.finish).pc = s.npc := rfl
@[simp] theorem State.finish_npc : (s.finish).npc = s.npc := rfl
@[simp] theorem State.finish_executed : (s.finish).executed = s.executed + 1 := rfl
@[simp] theorem State.finish_halted : (s.finish).halted = s.halted := rfl
@[simp] theorem State.finish_fault : (s.finish).fault = s.fault := rfl
@[simp] theorem State.finish_mem : (s.finish).mem = s.mem := rfl
@[simp] theorem State.finish_nloaded : (s.finish).nloaded = s.nloaded := rfl

/-! ### `State.withFetchWord` -/

@[simp] theorem State.withFetchWord_regs (n w : Nat) : (s.withFetchWord n w).regs = s.regs := rfl
@[simp] theorem State.withFetchWord_pc (n w : Nat) :
    (s.withFetchWord n w).pc = wrap32 ((cellOf (s32 s.pc)).getD 0 : Nat) := rfl
@[simp] theorem State.withFetchWord_npc (n w : Nat) : (s.withFetchWord n w).npc = s.npc := rfl
@[simp] theorem State.withFetchWord_executed (n w : Nat) :
    (s.withFetchWord n w).executed = s.executed := rfl
@[simp] theorem State.withFetchWord_halted (n w : Nat) : (s.withFetchWord n w).halted = false := rfl
@[simp] theorem State.withFetchWord_fault (n w : Nat) : (s.withFetchWord n w).fault = .none := rfl
@[simp] theorem State.withFetchWord_mem (n w : Nat) :
    (s.withFetchWord n w).mem
      = Memory.write s.mem ((cellOf (s32 s.pc)).getD 0) (tableWord n w) := rfl
@[simp] theorem State.withFetchWord_nloaded (n w : Nat) :
    (s.withFetchWord n w).nloaded = s.nloaded := rfl

end Sys2Proof.Machine
end

