-- ==== Sys2Proof/Laws/Ops.lean ====
section
/-! SUPPORT. For each shared operation over registers, memory and fetch, one lemma that says once what it
does, for later proofs to cite instead of unfolding it. -/

namespace Sys2Proof.Machine

/-! ### Registers -/

@[simp] theorem readReg_zero (s : State) : s.readReg 0 = 0#32 := by simp [State.readReg]

theorem readReg_of_ne_zero (s : State) {r : Reg} (h : r ≠ 0) : s.readReg r = s.regs[r] := by
  simp [State.readReg, h]

/-- A register reads the same in two states with the same register file. -/
theorem readReg_congr {s t : State} (h : t.regs = s.regs) (r : Reg) : t.readReg r = s.readReg r := by
  simp [State.readReg, h]

/-- One cell of the register file after a register write. -/
theorem regs_writeReg (s : State) (r k : Reg) (v : Word) :
    (s.writeReg r v).regs[k] = if k = r ∧ r ≠ 0 then v else s.regs[k] := by
  simp only [State.writeReg_regs]
  by_cases hr : r = 0
  · simp [hr]
  · by_cases hk : k = r
    · subst hk; simp [hr]
    · have : (r : Nat) ≠ (k : Nat) := fun h => hk (Fin.ext h.symm)
      simp [hr, hk, this]

/-- One register's value after a register write. -/
theorem readReg_writeReg (s : State) (r k : Reg) (v : Word) :
    (s.writeReg r v).readReg k = if k = r ∧ r ≠ 0 then v else s.readReg k := by
  by_cases hk : k = 0
  · subst hk; simp only [readReg_zero]; split
    · next h => exact absurd h.1.symm h.2
    · rfl
  · rw [readReg_of_ne_zero _ hk, readReg_of_ne_zero _ hk, regs_writeReg]

@[simp] theorem forceZero_cell (s : State) : s.forceZero.regs[(0 : Fin 8)] = 0#32 := by
  simp

/-- Forcing register 0 changes nothing when it is 0 already. -/
theorem set_zero_of_zero {regs : Vector Word 8} (h : regs[0] = 0#32) : regs.set 0 0#32 = regs := by
  rw [← h]; exact Vector.set_getElem_self (by decide)

@[simp] theorem readReg_stage (s : State) (r : Reg) : s.stage.readReg r = s.readReg r :=
  readReg_congr rfl r

/-- Ending a step leaves every register but register 0 as the executor left it. -/
theorem regs_finish (s : State) {k : Reg} (hk : k ≠ 0) : s.finish.regs[k] = s.regs[k] := by
  have : (k : Nat) ≠ 0 := fun h => hk (Fin.ext h)
  simp [Ne.symm this]

/-! ### Results and program counters -/

/-- ADD's result is the word sum. -/
theorem addResult_eq (u v : Word) : addResult u v = u + v := by
  simp [addResult, BitVec.ofInt_add]

/-- The fall-through, as an integer. -/
theorem s32_nextSequential (pc : Word) : s32 (nextSequential pc) = (s32 pc + 1) % 65536 := by
  simp only [nextSequential, s32, wrap32, BitVec.toInt_ofInt, Int.bmod, Config.memSize]; omega

/-- A branch target that a signed word can hold is not wrapped. -/
theorem s32_branchTarget (s : State) {o : Int} (h : -2147483648 ≤ s32 s.pc + 1 + o)
    (h' : s32 s.pc + 1 + o ≤ 2147483647) : s32 (s.branchTarget o) = s32 s.pc + 1 + o := by
  simp only [State.branchTarget, s32, wrap32, BitVec.toInt_ofInt, Int.bmod] at *; omega

/-- The link of an instruction in memory is not wrapped. -/
theorem s32_link (s : State) (h : 0 ≤ s32 s.pc ∧ s32 s.pc ≤ 65535) : s32 s.link = s32 s.pc + 1 := by
  simp only [State.link, s32, wrap32, BitVec.toInt_ofInt, Int.bmod] at *; omega

/-- The effective address reads the base register alone. -/
@[simp] theorem effectiveAddress_stage (s : State) (a : Reg) (o : Int) :
    s.stage.effectiveAddress a o = s.effectiveAddress a o := by simp [State.effectiveAddress]

/-! ### Addresses and memory -/

theorem cellOf_eq_some {addr : Int} {a : Nat} :
    cellOf addr = some a ↔ 0 ≤ addr ∧ addr ≤ 65535 ∧ a = addr.toNat := by
  simp only [cellOf, Config.memSize]
  split <;> simp <;> omega

theorem cellOf_eq_none {addr : Int} : cellOf addr = none ↔ ¬ (0 ≤ addr ∧ addr ≤ 65535) := by
  simp only [cellOf, Config.memSize]
  split <;> simp <;> omega

/-- The cell an address names is inside memory. -/
theorem cellOf_lt {addr : Int} {a : Nat} (h : cellOf addr = some a) : a < Config.memSize := by
  have := cellOf_eq_some.mp h; simp; omega

/-- What a fetch gives, by where the program counter is. -/
theorem fetch_eq (s : State) :
    s.fetch = if 0 ≤ s32 s.pc ∧ s32 s.pc ≤ 65535 then Memory.read s.mem (s32 s.pc).toNat
      else 25165824#32 := by
  unfold State.fetch
  split
  · next h => have := cellOf_eq_some.mp h; simp [this, State.memRead]
  · next h => have := cellOf_eq_none.mp h; simp [this]

/-- A fetch reads the program counter and memory alone. -/
theorem fetch_congr {s t : State} (hp : t.pc = s.pc) (hm : t.mem = s.mem) : t.fetch = s.fetch := by
  simp [fetch_eq, hp, hm]

end Sys2Proof.Machine
end

