-- ==== Sys2Proof/Laws/PerInstr.lean ====
section
/-! SUPPORT. The per-instruction family `OpcodeKept`: the opcode bits of an instruction's word are the
number 30_encoding.md R84 gives it; a `.fill` row's word is the raw word itself (R145). -/

namespace Sys2Proof.Laws.OpcodeKept

/-- The opcode bits of the instruction's word. -/
def Statement (i : Instr) : Prop :=
  match i with
  | .add .. => opcodeOf (encode i) = 0
  | .nand .. => opcodeOf (encode i) = 1
  | .lw .. => opcodeOf (encode i) = 2
  | .sw .. => opcodeOf (encode i) = 3
  | .beq .. => opcodeOf (encode i) = 4
  | .jalr .. => opcodeOf (encode i) = 5
  | .halt => opcodeOf (encode i) = 6
  | .noop => opcodeOf (encode i) = 7
  | .fill v => encode i = v

theorem add (a b d : Reg) : Statement (.add a b d) :=
  opcodeOf_pack (by decide) a.isLt b.isLt (d.isLt.trans (by decide))

theorem nand (a b d : Reg) : Statement (.nand a b d) :=
  opcodeOf_pack (by decide) a.isLt b.isLt (d.isLt.trans (by decide))

theorem lw (a b : Reg) (o : Int) : Statement (.lw a b o) :=
  opcodeOf_pack (by decide) a.isLt b.isLt (offsetField_lt o)

theorem sw (a b : Reg) (o : Int) : Statement (.sw a b o) :=
  opcodeOf_pack (by decide) a.isLt b.isLt (offsetField_lt o)

theorem beq (a b : Reg) (o : Int) : Statement (.beq a b o) :=
  opcodeOf_pack (by decide) a.isLt b.isLt (offsetField_lt o)

theorem jalr (a b : Reg) : Statement (.jalr a b) :=
  opcodeOf_pack (by decide) a.isLt b.isLt (by decide)

theorem halt : Statement .halt :=
  opcodeOf_pack (by decide) (by decide) (by decide) (by decide)

theorem noop : Statement .noop :=
  opcodeOf_pack (by decide) (by decide) (by decide) (by decide)

theorem fill (v : Word) : Statement (.fill v) := rfl

end Sys2Proof.Laws.OpcodeKept
end

