-- ==== Sys2Proof/Laws/Step.lean ====
section
/-! SUPPORT. What a step can do, said once: the form of a running step, the inversion of an answered
step, and where the word placed by `withFetchWord` is fetched. -/

namespace Sys2Proof.Machine

/-- A step of a running machine, by what its fetched word decodes to. -/
theorem step_running {s : State} (h : s.halted = false) :
    step s = match decode s.fetch with
      | .instr i => finishOutcome (exec i s.stage)
      | .illegalOpcode op => .next (s.stage.raiseIllegalOpcode op).finish := by
  simp only [step, h, refusedByStrictDecode, Config.strictDecode, Bool.false_and, Bool.false_eq_true,
    if_false]
  cases decode s.fetch <;> rfl

/-- If a step answers a next state, the machine was running and that state is the executor's answer
with parts 5 to 7 of the step done (R250). -/
theorem step_next {s t : State} (h : step s = .next t) :
    s.halted = false ∧
      ((∃ i u, decode s.fetch = .instr i ∧ exec i s.stage = .next u ∧ t = u.finish) ∨
        ∃ op, decode s.fetch = .illegalOpcode op ∧ t = (s.stage.raiseIllegalOpcode op).finish) := by
  cases hh : s.halted with
  | true => simp [step, hh] at h
  | false =>
    refine ⟨rfl, ?_⟩
    rw [step_running hh] at h
    cases hd : decode s.fetch with
    | illegalOpcode op => rw [hd] at h; exact .inr ⟨op, rfl, by simpa using h.symm⟩
    | instr i =>
      rw [hd] at h
      refine .inl ⟨i, ?_⟩
      cases he : exec i s.stage with
      | next u => exact ⟨u, rfl, rfl, by simpa [he, finishOutcome] using h.symm⟩
      | fault f => simp [he, finishOutcome] at h
      | refused r => simp [he, finishOutcome] at h

/-- What LW can do: load, or the controlled halt. -/
theorem exec_lw_cases (a b : Reg) (o : Int) (s : State) :
    (∃ c, cellOf (s.effectiveAddress a o) = some c ∧
        exec (.lw a b o) s = .next (s.writeReg b (s.memRead c))) ∨
      (cellOf (s.effectiveAddress a o) = none ∧
        exec (.lw a b o) s = .next (s.raiseInvalidAddress (s.effectiveAddress a o))) := by
  simp only [exec, execLw]
  split
  · next c hc => exact .inl ⟨c, hc, rfl⟩
  · next hc => exact .inr ⟨hc, rfl⟩

/-- What SW can do: store, or the controlled halt. -/
theorem exec_sw_cases (a b : Reg) (o : Int) (s : State) :
    (∃ c, cellOf (s.effectiveAddress a o) = some c ∧
        exec (.sw a b o) s = .next (s.memWrite c (s.readReg b))) ∨
      (cellOf (s.effectiveAddress a o) = none ∧
        exec (.sw a b o) s = .next (s.raiseInvalidAddress (s.effectiveAddress a o))) := by
  simp only [exec, execSw]
  split
  · next c hc => exact .inl ⟨c, hc, rfl⟩
  · next hc => exact .inr ⟨hc, rfl⟩

/-- JALR with two different registers: the target is the register's value before the link write. -/
theorem exec_jalr_jump {a b : Reg} (h : a ≠ b) (s : State) :
    exec (.jalr a b) s = .next ((s.writeReg b s.link).setNpc (s.readReg a)) := by
  have hr : (s.writeReg b s.link).readReg a = s.readReg a := by simp [readReg_writeReg, h]
  simp [exec, execJalr, h, hr]

/-- The word `withFetchWord` places is the word the next step fetches. -/
theorem withFetchWord_fetch (s : State) (n w : Nat) :
    (s.withFetchWord n w).fetch = tableWord n w := by
  have hp : ((cellOf (s32 s.pc)).getD 0) < 65536 := by
    cases hc : cellOf (s32 s.pc) with
    | none => simp
    | some a => simpa using cellOf_lt hc
  have hs : s32 (s.withFetchWord n w).pc = ((cellOf (s32 s.pc)).getD 0 : Nat) := by
    simp only [State.withFetchWord_pc, s32, wrap32, BitVec.toInt_ofInt]
    generalize (cellOf (s32 s.pc)).getD 0 = p at hp
    simp only [Int.bmod]; omega
  rw [fetch_eq, hs]
  simp [show (((cellOf (s32 s.pc)).getD 0 : Nat) : Int) ≤ 65535 by omega]

/-- The word placed runs as the very next step. -/
theorem withFetchWord_step (s : State) (n w : Nat) {i : Instr} (h : decodeTableWord n w = some i) :
    step (s.withFetchWord n w) = finishOutcome (exec i (s.withFetchWord n w).stage) := by
  have hd : decode (tableWord n w) = .instr i := by
    unfold decodeTableWord at h; split at h <;> simp_all
  rw [step_running rfl, withFetchWord_fetch, hd]

end Sys2Proof.Machine
end

