-- ==== Sys2Proof/Tests/Slice0.lean ====
section
/-! SUPPORT. The model's own tests: expected values are the spec's own words and test vectors
(30_encoding.md, 42_decoder.md R187, 95_test_vectors.md), never the model's answers. The theorems named
`witness_<statement>` show that the hypotheses of each obligation can be met, at boundary values. -/

namespace Sys2Proof.Tests

open Sys2Proof Sys2Proof.Machine

/-! ### Helpers -/

/-- A running machine with these registers, cells and program counter, everything else as at reset. -/
def mk (regs : List (Reg × Word)) (cells : List (Nat × Word)) (pc : Word) : State :=
  let s := regs.foldl (fun s c => s.writeReg c.1 c.2) { State.reset with pc := pc }
  cells.foldl (fun s c => s.memWrite c.1 c.2) s

/-- The state an outcome answers, or the state given where it answers none. -/
def answer (o : Host.Outcome State Fault Refusal) (s : State) : State :=
  match o with
  | .next t => t
  | .fault _ => s
  | .refused _ => s

/-- Whether an outcome is a next state. -/
def answers : Host.Outcome State Fault Refusal → Bool
  | .next _ => true
  | .fault _ => false
  | .refused _ => false

/-- The state after one step. -/
def after (s : State) : State := answer (step s) s

theorem next_answer {o : Host.Outcome State Fault Refusal} (s : State) (h : answers o = true) :
    o = .next (answer o s) := by cases o <;> simp_all [answers, answer]

/-! ### WellFormed: an ill-formed term for each check -/

theorem test_wf_lw_low : Instr.wellFormed (.lw 1 2 (-32769)) = false := by decide
theorem test_wf_lw_high : Instr.wellFormed (.lw 1 2 32768) = false := by decide
theorem test_wf_sw_low : Instr.wellFormed (.sw 1 2 (-32769)) = false := by decide
theorem test_wf_sw_high : Instr.wellFormed (.sw 1 2 32768) = false := by decide
theorem test_wf_beq_low : Instr.wellFormed (.beq 1 2 (-32769)) = false := by decide
theorem test_wf_beq_high : Instr.wellFormed (.beq 1 2 32768) = false := by decide
theorem test_wf_bounds :
    Instr.wellFormed (.lw 1 2 (-32768)) = true ∧ Instr.wellFormed (.beq 1 2 32767) = true := by decide

/-! ### Decode: words written out from 30_encoding.md R83, each field in its place -/

theorem test_decode_add : decode 0b0000000_000_001_010_0000000000000_011#32 = .instr (.add 1 2 3) := by
  decide
theorem test_decode_nand :
    decode 0b0000000_001_111_000_0000000000000_001#32 = .instr (.nand 7 0 1) := by decide
theorem test_decode_lw :
    decode 0b0000000_010_001_010_1000000000000000#32 = .instr (.lw 1 2 (-32768)) := by decide
theorem test_decode_sw :
    decode 0b0000000_011_110_011_0111111111111111#32 = .instr (.sw 6 3 32767) := by decide
theorem test_decode_beq :
    decode 0b0000000_100_011_101_1111111111111101#32 = .instr (.beq 3 5 (-3)) := by decide
theorem test_decode_jalr :
    decode 0b0000000_101_100_111_0000000000000000#32 = .instr (.jalr 4 7) := by decide
theorem test_decode_halt : decode 0b0000000_110_0000000000000000000000#32 = .instr .halt := by decide
theorem test_decode_noop : decode 0b0000000_111_0000000000000000000000#32 = .instr .noop := by decide
/-- A `.fill` row's word is never selected by the decoder: word 5 is `add 0 0 5` (R92). -/
theorem test_decode_fill : decode (encode (.fill 5#32)) = .instr (.add 0 0 5) := by decide
/-- Ignored bits (R187): bit 25, bit 3 of an R-type word, bits 21 to 0 of HALT. -/
theorem test_decode_ignored :
    decode 33554432#32 = .instr (.add 0 0 0) ∧ decode 655371#32 = .instr (.add 1 2 3) ∧
      decode 25165829#32 = .instr .halt := by decide
/-- Words of 95_test_vectors.md (V-E6, V-E9, V-E11, V-E13) are what the encoder emits. -/
theorem test_encode :
    encode (.add 7 7 7) = 0x003F0007#32 ∧ encode (.sw 7 7 (-1)) = 0x00FFFFFF#32 ∧
      encode (.beq 0 0 (-32768)) = 0x01008000#32 ∧ encode (.jalr 7 7) = 0x017F0000#32 := by decide
theorem test_decodeTableWord :
    decodeTableWord 32 0x00810006 = some (.lw 0 1 6) ∧
      decodeTableWord 32 0xFFFFFFFF = some .noop := by decide

/-! ### One step of each instruction (95_test_vectors.md part 2) -/

/-- The start state of the R-type vectors, with the instruction's word at the program counter. -/
def rStart (w : Word) : State :=
  mk [(1, 5#32), (2, 10#32), (4, -1#32), (5, 0x7FFFFFFF#32), (6, 1#32), (7, 0x80000000#32)]
    [(10, w)] 10#32

/-- V-R2. -/
theorem test_add_wraps : (after (rStart 3014659#32)).readReg 3 = 0x80000000#32 := by decide
/-- V-R6: a write to register 0 is suppressed. -/
theorem test_add_to_zero :
    (after (rStart 655360#32)).regs = (rStart 0#32).regs ∧ (after (rStart 655360#32)).pc = 11#32 := by
  decide
/-- V-R7. -/
theorem test_nand : (after (rStart 4849667#32)).readReg 3 = -1#32 := by decide
/-- V-R11: source and destination the same. -/
theorem test_nand_same : (after (rStart 4784129#32)).readReg 1 = -6#32 := by decide

/-- The start state of the I-type vectors. -/
def iStart (w : Word) : State :=
  mk [(1, 100#32), (2, 65535#32), (3, 7#32), (4, 7#32), (5, -1#32), (6, 65536#32)]
    [(100, 11#32), (97, 22#32), (65535, 33#32), (5, 44#32), (10, w)] 10#32

/-- V-I3: the last cell. -/
theorem test_lw_last : (after (iStart 9895936#32)).readReg 7 = 33#32 := by decide
/-- V-I7: an address outside memory halts even when regB is 0; the step is whole. -/
theorem test_lw_outside :
    (after (iStart 11534336#32)).fault = .invalidAddress 65536 ∧
      (after (iStart 11534336#32)).pc = 11#32 ∧ (after (iStart 11534336#32)).executed = 1 := by decide
/-- V-I9. -/
theorem test_sw : (after (iStart 13303809#32)).memRead 101 = 7#32 := by decide
/-- V-I11. -/
theorem test_sw_outside :
    (after (iStart 15925248#32)).fault = .invalidAddress 65536 ∧
      (after (iStart 15925248#32)).mem = (iStart 15925248#32).mem := by decide
/-- V-I13 and V-I14. -/
theorem test_beq :
    (after (iStart 18612229#32)).pc = 16#32 ∧ (after (iStart 18677765#32)).pc = 11#32 := by decide
/-- R215: at 65535 the fall-through wraps and the taken target does not. -/
theorem test_beq_top :
    (after (mk [(1, 1#32), (2, 2#32)] [(65535, 0x010A0000#32)] 65535#32)).pc = 0#32 ∧
      (after (mk [] [(65535, 0x01000000#32)] 65535#32)).pc = 65536#32 := by decide

/-- The start state of the J-type vectors. -/
def jStart (w : Word) : State := mk [(1, 50#32), (4, -5#32), (5, 70000#32)] [(10, w)] 10#32

/-- V-J1 and V-J6. -/
theorem test_jalr :
    (after (jStart 21626880#32)).pc = 50#32 ∧ (after (jStart 21626880#32)).readReg 2 = 11#32 ∧
      (after (jStart 23199744#32)).pc = -5#32 := by decide
/-- V-J3: the jump is suppressed when both fields name one register. -/
theorem test_jalr_same :
    (after (jStart 21561344#32)).pc = 11#32 ∧ (after (jStart 21561344#32)).readReg 1 = 11#32 := by decide
/-- V-O1. -/
theorem test_halt :
    (after (mk [] [(5, 25165824#32)] 5#32)).halted = true ∧
      (after (mk [] [(5, 25165824#32)] 5#32)).pc = 6#32 := by decide
/-- V-O5: the manufactured HALT. -/
theorem test_halt_manufactured :
    (after (mk [] [] 65536#32)).halted = true ∧ (after (mk [] [] 65536#32)).pc = 1#32 ∧
      (after (mk [] [] 65536#32)).fault = .none := by decide
/-- V-O3. -/
theorem test_noop_wraps : (after (mk [] [(65535, 29360128#32)] 65535#32)).pc = 0#32 := by decide
/-- R92: word 5, reached as an instruction, clears register 5. -/
theorem test_fill :
    (answer (exec (.fill 5#32) (mk [(5, 9#32)] [] 0#32)) State.reset).readReg 5 = 0#32 := by decide
/-- V-O8. -/
theorem test_halted_takes_no_step : answers (step (mk [] [] 0#32).halt) = false := by decide
theorem test_withFetchWord :
    (after (State.reset.withFetchWord 32 8454150)).executed = 1 ∧
      (State.reset.withFetchWord 32 8454150).fetch = 8454150#32 := by decide

/-! ### Load, run, assemble -/

/-- P1, its second step included: the source's own scenario. -/
theorem test_source_scenario :
    (run 9 (mk [(1, 5#32), (2, 10#32)] [(0, 655363#32), (1, 25165824#32)] 0#32)).2.readReg 3 = 15#32 ∧
      (run 9 (mk [] [(0, 655363#32), (1, 25165824#32)] 0#32)).2.executed = 2 := by decide
theorem test_load_refuses :
    load [2147483648] = .error (.integerOutOfRange 2147483648) ∧
      readImage 0 ["7", "x"] = .error (.nonIntegerLine 1) := by decide
/-- V-A20. -/
theorem test_assemble_labels :
    Asm.assemble [⟨some "x", some "halt", []⟩, ⟨none, some "beq", ["0", "0", "x"]⟩,
      ⟨none, some "lw", ["0", "1", "x"]⟩, ⟨none, some ".fill", ["x"]⟩]
      = .ok [25165824#32, 16842750#32, 8454144#32, 0#32] := by decide
/-- V-A2, V-A9, V-A11. -/
theorem test_assemble_errors :
    Asm.assemble [⟨none, some "add", ["8", "0", "0"]⟩] = .error ⟨.overflowingField, "8", 0, some (0, 7)⟩ ∧
    Asm.assemble [⟨none, some "beq", ["0", "0", "32768"]⟩]
      = .error ⟨.overflowingField, "32768", 0, some (-32768, 32767)⟩ ∧
    Asm.assemble [⟨none, some "beq", ["0", "0", "nowhere"]⟩]
      = .error ⟨.undefinedLabel, "nowhere", 0, none⟩ := by decide
/-- V-A12, V-A13, V-A16, V-A19. -/
theorem test_assemble_counts :
    Asm.assemble [⟨none, some "jalr", ["1"]⟩] = .error ⟨.unknownInstruction, "jalr", 0, none⟩ ∧
    Asm.assemble [⟨none, some "jalr", ["1", "2", "3"]⟩] = .error ⟨.unknownInstruction, "3", 0, none⟩ ∧
    Asm.assemble [⟨none, some ".fill", ["2147483648"]⟩]
      = .error ⟨.undefinedLabel, "2147483648", 0, none⟩ ∧
    Asm.assemble [⟨some "lab", none, []⟩] = .error ⟨.unknownInstruction, "", 0, none⟩ := by decide
/-- V-A24, V-A25, V-A26, V-A33. -/
theorem test_assemble_labels_refused :
    Asm.assemble [⟨some "toolong", some "noop", []⟩] = .error ⟨.illegalLabel, "toolong", 0, none⟩ ∧
    Asm.assemble [⟨some "a_b", some "noop", []⟩] = .error ⟨.illegalLabel, "a_b", 0, none⟩ ∧
    Asm.assemble [⟨some "Halt", some "noop", []⟩] = .error ⟨.illegalLabel, "Halt", 0, none⟩ ∧
    Asm.assemble [⟨some "dup", some "noop", []⟩, ⟨none, some "mul", ["1"]⟩, ⟨some "dup", some "halt", []⟩]
      = .error ⟨.duplicateLabel, "dup", 2, none⟩ := by decide
/-- P2's first lines as text, and the output form of R161. -/
theorem test_front_end :
    Asm.parseProgram ["        lw   0 1 five  # x[1] = 5", "", "// note", "start add  1 2 1"]
      = [⟨none, some "lw", ["0", "1", "five"]⟩, ⟨some "start", some "add", ["1", "2", "1"]⟩] ∧
    Asm.outputLines [8454150#32, -1#32] = ["8454150", "-1"] := by decide

/-! ### Witnesses: the hypotheses of each obligation are met -/

/-- A step of this state answers, and its fetched word decodes to this instruction. -/
abbrev runsAs (s : State) (i : Instr) : Prop := step s = .next (after s) ∧ decode s.fetch = .instr i

theorem runsAs_of {s : State} {i : Instr} (h : answers (step s) = true ∧ decode s.fetch = .instr i) :
    runsAs s i := ⟨next_answer s h.1, h.2⟩

/-- Opcode 7 is the last k; each clause has a word pair that differs in an ignored bit. -/
theorem witness_UnusedBitsAreIgnored :
    (7 < 8 ∧ opcodeOf 0x01C00000#32 = 7) ∧
    (opcodeOf 0x00400008#32 < 2 ∧ 0x00400000#32 &&& 0x01FF0007#32 = 0x00400008#32 &&& 0x01FF0007#32) ∧
    (2 ≤ opcodeOf 0x03000000#32 ∧ opcodeOf 0x03000000#32 < 5 ∧
      0x01000000#32 &&& 0x01FFFFFF#32 = 0x03000000#32 &&& 0x01FFFFFF#32) ∧
    (opcodeOf 0x0140FFFF#32 = 5 ∧ 0x01400000#32 &&& 0x01FF0000#32 = 0x0140FFFF#32 &&& 0x01FF0000#32) ∧
    (5 < opcodeOf 0x01BFFFFF#32 ∧
      0x01800000#32 &&& 0x01C00000#32 = 0x01BFFFFF#32 &&& 0x01C00000#32) := by decide

/-- Both bounds of the offset, and a word that is not canonical. -/
theorem witness_DecodeAndEncodeRoundTrip :
    (Instr.isInstruction (.lw 7 0 (-32768)) = true ∧ Instr.wellFormed (.lw 7 0 (-32768)) = true) ∧
    (Instr.isInstruction (.beq 7 0 32767) = true ∧ Instr.wellFormed (.beq 7 0 32767) = true) ∧
    (decode 0xFFFFFFFF#32 = .instr .noop ∧ isCanonical 0xFFFFFFFF#32 = false) ∧
    (decode 655363#32 = .instr (.add 1 2 3) ∧ isCanonical 655363#32 = true) := by decide

theorem witness_EncodedInstructionsAreCanonical : Instr.isInstruction (.sw 7 7 (-1)) = true := by decide

/-- Sums of exactly 2^31 − 1 and −2^31, and one past the range. -/
theorem witness_AddIsTheSumModuloTwoToThe32 :
    (3 : Reg) ≠ 0 ∧
    s32 ((rStart 0#32).readReg 5) + s32 ((rStart 0#32).readReg 0) = 2147483647 ∧
    s32 ((rStart 0#32).readReg 7) + s32 ((rStart 0#32).readReg 0) = -2147483648 ∧
    s32 ((rStart 0#32).readReg 5) + s32 ((rStart 0#32).readReg 6) = 2147483648 := by decide

theorem witness_NandWritesComplementOfAnd :
    ((7 : Reg) ≠ 0 ∧ 31 < 32) ∧ ((1 : Reg) ≠ 7 ∨ (7 : Reg) = 0) ∧ ((0 : Reg) ≠ 0 ∨ (0 : Reg) = 0) := by
  decide

/-- The first and the last cell. -/
theorem witness_LwLoadsTheAddressedCell :
    (0 ≤ s32 ((iStart 0#32).readReg 0) + 0 ∧ s32 ((iStart 0#32).readReg 0) + 0 ≤ 65535) ∧
    (0 ≤ s32 ((iStart 0#32).readReg 2) + 0 ∧ s32 ((iStart 0#32).readReg 2) + 0 ≤ 65535) := by decide

/-- One below the first cell and one above the last. -/
theorem witness_LwOutsideMemoryHalts :
    ¬ (0 ≤ s32 ((iStart 0#32).readReg 0) + (-1) ∧ s32 ((iStart 0#32).readReg 0) + (-1) ≤ 65535) ∧
    ¬ (0 ≤ s32 ((iStart 0#32).readReg 2) + 1 ∧ s32 ((iStart 0#32).readReg 2) + 1 ≤ 65535) := by decide

/-- The last cell through an offset of −1, and the first through −100. -/
theorem witness_SwStoresToTheAddressedCell :
    (0 ≤ s32 ((iStart 0#32).readReg 6) + (-1) ∧ s32 ((iStart 0#32).readReg 6) + (-1) ≤ 65535) ∧
    (0 ≤ s32 ((iStart 0#32).readReg 1) + (-100) ∧ s32 ((iStart 0#32).readReg 1) + (-100) ≤ 65535) := by
  decide

theorem witness_SwOutsideMemoryHalts :
    ¬ (0 ≤ s32 ((iStart 0#32).readReg 6) + 0 ∧ s32 ((iStart 0#32).readReg 6) + 0 ≤ 65535) ∧
    ¬ (0 ≤ s32 ((iStart 0#32).readReg 5) + 0 ∧ s32 ((iStart 0#32).readReg 5) + 0 ≤ 65535) := by decide

theorem witness_HaltSetsTheFlagAndItsStepIsWhole :
    (mk [] [(65535, 25165824#32)] 65535#32).halted = false ∧
      (mk [] [(65535, 25165824#32)] 65535#32).regs[0] = 0#32 ∧
      decode (mk [] [(65535, 25165824#32)] 65535#32).fetch = .instr .halt := by decide

theorem witness_NoopOnlyAdvances :
    (mk [] [(65535, -1#32)] 65535#32).halted = false ∧
      (mk [] [(65535, -1#32)] 65535#32).regs[0] = 0#32 ∧
      decode (mk [] [(65535, -1#32)] 65535#32).fetch = .instr .noop := by decide

theorem witness_StepRunsTheDecodedInstruction :
    (iStart 13303809#32).halted = false ∧
      decode (iStart 13303809#32).fetch = .instr (.sw 1 3 1) := by decide

/-- A running state and a halted one. -/
theorem witness_StepIsDefinedExactlyWhenRunning :
    answers (step State.reset) = true ∧ answers (step State.reset.halt) = false := by decide

/-- The first and the last address; then one below the first and one above the last. -/
theorem witness_FetchReadsItsCellAndOutsideMemoryHalts :
    (0 ≤ s32 (mk [] [] 0#32).pc ∧ s32 (mk [] [] 65535#32).pc ≤ 65535) ∧
    ((mk [] [] (-1#32)).halted = false ∧
      ¬ (0 ≤ s32 (mk [] [] (-1#32)).pc ∧ s32 (mk [] [] (-1#32)).pc ≤ 65535)) ∧
    ((mk [] [] 65536#32).halted = false ∧
      ¬ (0 ≤ s32 (mk [] [] 65536#32).pc ∧ s32 (mk [] [] 65536#32).pc ≤ 65535)) := by decide

/-- A taken and an untaken BEQ, both forms of JALR, and a fall-through from 65535. -/
theorem witness_PcAfterStepFollowsTheTable :
    runsAs (iStart 18612229#32) (.beq 3 4 5) ∧ runsAs (iStart 18677765#32) (.beq 3 5 5) ∧
    runsAs (jStart 21626880#32) (.jalr 1 2) ∧ runsAs (jStart 21561344#32) (.jalr 1 1) ∧
    runsAs (mk [] [(65535, 29360128#32)] 65535#32) .noop :=
  ⟨runsAs_of (by decide), runsAs_of (by decide), runsAs_of (by decide), runsAs_of (by decide),
    runsAs_of (by decide)⟩

theorem witness_RegisterZeroIsHardwired :
    ((rStart 0#32).regs[0] = 0#32 ∧
      ∃ t, exec (.add 1 2 0) (rStart 0#32) = .next t) ∧ runsAs (rStart 655360#32) (.add 1 2 0) :=
  ⟨⟨by decide, _, rfl⟩, runsAs_of (by decide)⟩

/-- Each of the four instructions that write a register changes one. -/
theorem witness_OnlyTheDestinationRegisterChanges :
    (runsAs (rStart 655363#32) (.add 1 2 3) ∧
      (after (rStart 655363#32)).regs[(3 : Reg)] ≠ (rStart 655363#32).regs[(3 : Reg)]) ∧
    (runsAs (rStart 4849667#32) (.nand 1 2 3) ∧
      (after (rStart 4849667#32)).regs[(3 : Reg)] ≠ (rStart 4849667#32).regs[(3 : Reg)]) ∧
    (runsAs (iStart 9895936#32) (.lw 2 7 0) ∧
      (after (iStart 9895936#32)).regs[(7 : Reg)] ≠ (iStart 9895936#32).regs[(7 : Reg)]) ∧
    (runsAs (jStart 21626880#32) (.jalr 1 2) ∧
      (after (jStart 21626880#32)).regs[(2 : Reg)] ≠ (jStart 21626880#32).regs[(2 : Reg)]) :=
  ⟨⟨runsAs_of (by decide), by decide⟩, ⟨runsAs_of (by decide), by decide⟩,
    ⟨runsAs_of (by decide), by decide⟩, ⟨runsAs_of (by decide), by decide⟩⟩

/-- A store to the last cell. -/
theorem witness_OnlySwChangesMemory :
    runsAs (iStart 15990783#32) (.sw 6 3 (-1)) ∧
      Memory.read (after (iStart 15990783#32)).mem 65535
        ≠ Memory.read (iStart 15990783#32).mem 65535 :=
  ⟨runsAs_of (by decide), by decide⟩

/-- A HALT, a bad address, and a step that goes on. -/
theorem witness_OnlyHaltAndBadAddressesHalt :
    runsAs (mk [] [(5, 25165824#32)] 5#32) .halt ∧ runsAs (iStart 9895937#32) (.lw 2 7 1) ∧
    runsAs (iStart 9895936#32) (.lw 2 7 0) :=
  ⟨runsAs_of (by decide), runsAs_of (by decide), runsAs_of (by decide)⟩

/-- LW one above the last cell, and SW one above it. -/
theorem witness_InvalidAddressStepIsAWholeStep :
    ((iStart 9895937#32).halted = false ∧ decode (iStart 9895937#32).fetch = .instr (.lw 2 7 1) ∧
      ¬ (0 ≤ s32 ((iStart 9895937#32).readReg 2) + 1 ∧ s32 ((iStart 9895937#32).readReg 2) + 1 ≤ 65535)) ∧
    ((iStart 15925248#32).halted = false ∧ decode (iStart 15925248#32).fetch = .instr (.sw 6 3 0) ∧
      ¬ (0 ≤ s32 ((iStart 15925248#32).readReg 6) + 0 ∧
        s32 ((iStart 15925248#32).readReg 6) + 0 ≤ 65535)) := by decide

theorem witness_ZeroWordOnlyAdvances :
    (mk [] [] 65535#32).halted = false ∧ (mk [] [] 65535#32).regs[0] = 0#32 ∧
      (mk [] [] 65535#32).fetch = 0#32 := by decide

theorem witness_WrappedAddressGivesTheSameVerdict :
    offsetInRange (-32768) ∧ offsetInRange 32767 := by decide

/-- `sw 0 1 11` at address 10: the next fetch is of the stored HALT. -/
theorem witness_StoredWordIsFetchedByTheNextStep :
    runsAs (mk [(1, 25165824#32)] [(10, 0x00C1000B#32)] 10#32) (.sw 0 1 11) ∧
      (after (mk [(1, 25165824#32)] [(10, 0x00C1000B#32)] 10#32)).halted = false ∧
      s32 (after (mk [(1, 25165824#32)] [(10, 0x00C1000B#32)] 10#32)).pc
        = s32 ((mk [(1, 25165824#32)] [(10, 0x00C1000B#32)] 10#32).readReg 0) + 11 :=
  ⟨runsAs_of (by decide), by decide⟩

/-- `sw 0 1 100` at address 10, then `lw 0 2 100` at address 11. -/
theorem witness_LoadReturnsTheStoredWord :
    runsAs (mk [(1, 7#32)] [(10, 0x00C10064#32), (11, 0x00820064#32)] 10#32) (.sw 0 1 100) ∧
      runsAs (after (mk [(1, 7#32)] [(10, 0x00C10064#32), (11, 0x00820064#32)] 10#32)) (.lw 0 2 100) ∧
      (2 : Reg) ≠ 0 ∧
      s32 ((mk [(1, 7#32)] [(10, 0x00C10064#32), (11, 0x00820064#32)] 10#32).readReg 0) + 100
        = s32 ((after (mk [(1, 7#32)] [(10, 0x00C10064#32), (11, 0x00820064#32)] 10#32)).readReg 0)
          + 100 :=
  ⟨runsAs_of (by decide), runsAs_of (by decide), by decide, by decide⟩

theorem witness_HiddenStateAffectsNoStep : runsAs (jStart 23199744#32) (.jalr 4 2) :=
  runsAs_of (by decide)

/-- A state that is not the reset state satisfies the invariant and steps, by a store and by a fault. -/
theorem witness_EveryStepKeepsTheMachineInvariant :
    ((iStart 15990783#32).Inv ∧ runsAs (iStart 15990783#32) (.sw 6 3 (-1))) ∧
      (iStart 9895937#32).Inv ∧ runsAs (iStart 9895937#32) (.lw 2 7 1) :=
  ⟨⟨⟨by decide, by decide, trivial, by decide, by decide⟩, runsAs_of (by decide)⟩,
    ⟨by decide, by decide, trivial, by decide, by decide⟩, runsAs_of (by decide)⟩

/-- An image with a zero word and the two ends of the word range. -/
theorem witness_LoadPlacesTheImageFromAddressZero :
    (∃ s, load [2147483647, 0, -2147483648] = .ok s) ∧
      ([2147483647, 0, -2147483648] : List Int)[2]? = some (-2147483648) ∧
      ([2147483647, 0, -2147483648] : List Int).length ≤ 3 := ⟨⟨_, rfl⟩, by decide⟩

theorem witness_LoadedMachineSatisfiesTheInvariant :
    ∃ s, load [2147483647, 0, -2147483648] = .ok s := ⟨_, rfl⟩

/-- An image that fits, and one that does not. -/
theorem witness_ImageLoadsExactlyWhenItFits :
    (∀ n ∈ ([2147483647, -2147483648] : List Int), -2147483648 ≤ n ∧ n ≤ 2147483647) ∧
      ¬ ∀ n ∈ ([2147483648] : List Int), -2147483648 ≤ n ∧ n ≤ 2147483647 := by decide

theorem witness_PreloadSetsOneRegisterBeforeTheFirstStep :
    ((7 : Reg) ≠ 0 ∧ State.reset.executed = 0) ∧ (0 : Reg) = 0 ∧ (after State.reset).executed ≠ 0 := by
  decide

/-- A run that halts in its second step, and one whose fuel ends first, before and after its first step. -/
theorem witness_RunEmitsTheStartAndEveryStep :
    (run 0 (mk [] [(1, 25165824#32)] 0#32)).2.halted = false ∧
    1 < (run 2 (mk [] [(1, 25165824#32)] 0#32)).1.length ∧
      (run 1 (mk [] [(1, 25165824#32)] 0#32)).2.halted = false := by decide

theorem witness_HaltedRunIsFinal :
    (run 2 (mk [] [(1, 25165824#32)] 0#32)).2.halted = true := by decide

theorem witness_ExecutedCountsTheSteps :
    Host.Core.run Sys2Proof.core 1 (rStart 655363#32) = .next (after (rStart 655363#32)) := by
  simp only [Host.Core.run]
  rw [show Sys2Proof.core.step (rStart 655363#32) = .next (after (rStart 655363#32)) from
    next_answer _ (by decide)]

/-- A NOOP, then a HALT. -/
theorem witness_RunsWithoutLoadsAndStoresAreSafe :
    (mk [] [(0, 29360128#32), (1, 25165824#32)] 0#32).fault = .none ∧
    ∀ n, n ≤ 1 → ∀ a b o,
      decode (run n (mk [] [(0, 29360128#32), (1, 25165824#32)] 0#32)).2.fetch ≠ .instr (.lw a b o) ∧
      decode (run n (mk [] [(0, 29360128#32), (1, 25165824#32)] 0#32)).2.fetch
        ≠ .instr (.sw a b o) := by
  have h0 : decode (run 0 (mk [] [(0, 29360128#32), (1, 25165824#32)] 0#32)).2.fetch
      = .instr .noop := by decide
  have h1 : decode (run 1 (mk [] [(0, 29360128#32), (1, 25165824#32)] 0#32)).2.fetch
      = .instr .halt := by decide
  refine ⟨by decide, fun n hn a b o => ?_⟩
  interval_cases n
  · rw [h0]; simp
  · rw [h1]; simp

theorem witness_EmissionExposesTheCoreState :
    0 < ({ State.reset with nloaded := 1 } : State).nloaded ∧ State.reset.halt.halted = true := by decide

/-- One program for the assembler's statements: every mnemonic, a label before and one after its use. -/
def sample : List Asm.Line :=
  [⟨some "start", some "add", ["1", "2", "7"]⟩, ⟨none, some "nand", ["0", "7", "1"]⟩,
   ⟨none, some "lw", ["0", "1", "32767"]⟩, ⟨none, some "sw", ["0", "1", "-32768"]⟩,
   ⟨none, some "beq", ["1", "1", "start"]⟩, ⟨none, some "beq", ["1", "1", "32767"]⟩,
   ⟨none, some "jalr", ["4", "end"]⟩, ⟨some "end", some "halt", []⟩, ⟨none, some "noop", []⟩,
   ⟨none, some ".fill", ["-1"]⟩]

/-- The sample's symbol table. -/
def sampleSym : Asm.SymTab := [("end", 7), ("start", 0)]

/-- The labels of the sample's first line and of its line 7. -/
theorem witness_LabelsNameTheirLines :
    Asm.buildSymbols sample = .ok sampleSym ∧ "start" ≠ "" ∧
      sample[0]?.map Asm.Line.label = some (some "start") ∧
      sample[7]? = some ⟨some "end", some "halt", []⟩ := by decide

theorem witness_SymbolTableExistsExactlyWhenLabelsAreLegal :
    Asm.mnemonicOf "end" = none ∧ Asm.mnemonicOf "Halt" = some .halt ∧
      Asm.isLetter 'Z' = true ∧ Asm.isLetter '[' = false ∧ Asm.isLetterOrDigit '9' = true := by decide

theorem witness_RTypeLinesEncode :
    Asm.mnemonicOf "add" = some .add ∧ Asm.mnemonicOf "NAND" = some .nand ∧
      Asm.encodeLine sampleSym 0 ⟨none, some "add", ["1", "2", "7"]⟩ = .ok (encode (.add 1 2 7)) ∧
      Asm.encodeLine sampleSym 1 ⟨none, some "NAND", ["0", "7", "1"]⟩ = .ok (encode (.nand 0 7 1)) := by
  decide

theorem witness_LoadAndStoreLinesEncode :
    Asm.mnemonicOf "lw" = some .lw ∧ Asm.mnemonicOf "sw" = some .sw ∧
      Asm.encodeLine sampleSym 2 ⟨none, some "lw", ["0", "1", "32767"]⟩ = .ok (encode (.lw 0 1 32767)) ∧
      Asm.encodeLine sampleSym 3 ⟨none, some "sw", ["0", "1", "end"]⟩ = .ok (encode (.sw 0 1 7)) := by
  decide

theorem witness_BranchLinesEncode :
    Asm.mnemonicOf "beq" = some .beq ∧
      Asm.encodeLine sampleSym 4 ⟨none, some "beq", ["1", "1", "start"]⟩
        = .ok (encode (.beq 1 1 (-5))) ∧
      Asm.encodeLine sampleSym 5 ⟨none, some "beq", ["1", "1", "32767"]⟩
        = .ok (encode (.beq 1 1 32767)) := by decide

theorem witness_JumpAndOpcodeOnlyLinesEncode :
    Asm.mnemonicOf "jalr" = some .jalr ∧ Asm.mnemonicOf "halt" = some .halt ∧
      Asm.mnemonicOf "noop" = some .noop ∧
      Asm.encodeLine sampleSym 6 ⟨none, some "jalr", ["4", "end"]⟩ = .ok (encode (.jalr 4 7)) := by decide

theorem witness_FillLinesEmitTheValueVerbatim :
    Asm.mnemonicOf ".fill" = some .fill ∧
      Asm.encodeLine sampleSym 9 ⟨none, some ".fill", ["-1"]⟩ = .ok (-1#32) := by decide

/-- `beq 1 1 start` at address 4 of the sample, fetched by a running machine at 4. -/
theorem witness_AssembledBranchReachesItsLabel :
    Asm.mnemonicOf "beq" = some .beq ∧ Asm.numericLiteral "start" = none ∧
      sampleSym.lookup "start" = some 0 ∧
      Asm.encodeLine sampleSym 4 ⟨none, some "beq", ["1", "1", "start"]⟩
        = .ok (encode (.beq 1 1 (-5))) ∧
      (mk [] [(4, encode (.beq 1 1 (-5)))] 4#32).halted = false ∧
      s32 (mk [] [(4, encode (.beq 1 1 (-5)))] 4#32).pc = ((4 : Nat) : Int) ∧
      (mk [] [(4, encode (.beq 1 1 (-5)))] 4#32).fetch = encode (.beq 1 1 (-5)) := by decide

/-- The sample assembles, line for line, and is short enough to load. -/
theorem witness_AssemblyEncodesEveryLineInOrder :
    (∃ words, Asm.assemble sample = .ok words) ∧ sample[9]? = some ⟨none, some ".fill", ["-1"]⟩ :=
  ⟨⟨_, rfl⟩, rfl⟩

theorem witness_AssembledImageLoadsWordForWord :
    (∃ words, Asm.assemble sample = .ok words) ∧ sample.length ≤ 65536 := ⟨⟨_, rfl⟩, by decide⟩

/-- An error of pass 1, and one of pass 2 on a line after one that encodes. -/
theorem witness_FirstErrorIsReported :
    Asm.assemble [⟨some "1abc", some "noop", []⟩] = .error ⟨.illegalLabel, "1abc", 0, none⟩ ∧
      Asm.assemble [⟨none, some "noop", []⟩, ⟨none, some "add", ["0", "0", "8"]⟩]
        = .error ⟨.overflowingField, "8", 1, some (0, 7)⟩ := by decide

theorem witness_BlankLinesTakeNoAddress :
    ∀ c ∈ Asm.stripComment " \t// lw 0 0 0".toList, c.isWhitespace = true :=
  List.all_eq_true.mp (by decide)

end Sys2Proof.Tests
end

/-! The state's family (10_state.md): the cases of every executor as one relation, what each case keeps, and
from them the machine's invariant, the frames of a step, and reset and load. -/

namespace Sys2Proof

/-! ### The decoder's answers -/

/-- Each word decodes to one of the eight instructions with its fields in range: the defensive arm of R185
is dead (R186). -/
theorem decode_eq_instr (w : Word) :
    ∃ i, decode w = .instr i ∧ i.isInstruction = true ∧ i.wellFormed = true := by
  have hoff : offsetInRange (offsetOf w) := offsetOf_range w
  have hop : opcodeOf w < 8 := opcodeOf_lt w
  unfold decode
  interval_cases opcodeOf w
  all_goals exact ⟨_, rfl, rfl, by simp [Instr.wellFormed, hoff]⟩

/-- What the decoder answers is never the data row, and every field of it is in range (R184). -/
theorem instr_of_decode {w : Word} {i : Instr} (h : decode w = .instr i) :
    i.isInstruction = true ∧ i.wellFormed = true := by
  obtain ⟨j, hj, hok⟩ := decode_eq_instr w
  obtain rfl : j = i := by simpa [hj] using h
  exact hok

theorem decode_ne_illegalOpcode (w : Word) (op : Nat) : decode w ≠ .illegalOpcode op := by
  obtain ⟨i, hi, -⟩ := decode_eq_instr w
  simp [hi]

end Sys2Proof

namespace Sys2Proof.Machine

/-! ### What an executor can do -/

/-- The answers of `exec` on the eight instructions, one constructor for each case of each executor's rule
(43_rtype.md to 46_otype.md); `exec_eq_next_iff` ties it to `exec`. -/
inductive Executes : Instr → State → State → Prop
  | add (a b d : Reg) (s : State) :
      Executes (.add a b d) s (s.writeReg d (addResult (s.readReg a) (s.readReg b)))
  | nand (a b d : Reg) (s : State) :
      Executes (.nand a b d) s (s.writeReg d (nandResult (s.readReg a) (s.readReg b)))
  | lwLoads (a b : Reg) (o : Int) (s : State) (c : Nat)
      (hc : cellOf (s.effectiveAddress a o) = some c) :
      Executes (.lw a b o) s (s.writeReg b (s.memRead c))
  | lwHalts (a b : Reg) (o : Int) (s : State) (hc : cellOf (s.effectiveAddress a o) = none) :
      Executes (.lw a b o) s (s.raiseInvalidAddress (s.effectiveAddress a o))
  | swStores (a b : Reg) (o : Int) (s : State) (c : Nat)
      (hc : cellOf (s.effectiveAddress a o) = some c) :
      Executes (.sw a b o) s (s.memWrite c (s.readReg b))
  | swHalts (a b : Reg) (o : Int) (s : State) (hc : cellOf (s.effectiveAddress a o) = none) :
      Executes (.sw a b o) s (s.raiseInvalidAddress (s.effectiveAddress a o))
  | beqTaken (a b : Reg) (o : Int) (s : State) (h : s.readReg a = s.readReg b) :
      Executes (.beq a b o) s (s.setNpc (s.branchTarget o))
  | beqNotTaken (a b : Reg) (o : Int) (s : State) (h : s.readReg a ≠ s.readReg b) :
      Executes (.beq a b o) s s
  | jalrLinks (a : Reg) (s : State) : Executes (.jalr a a) s (s.writeReg a s.link)
  | jalrJumps (a b : Reg) (s : State) (h : a ≠ b) :
      Executes (.jalr a b) s ((s.writeReg b s.link).setNpc (s.readReg a))
  | halt (s : State) : Executes .halt s s.halt
  | noop (s : State) : Executes .noop s s

theorem exists_executes {i : Instr} (hi : i.isInstruction = true) (s : State) :
    ∃ t, exec i s = .next t ∧ Executes i s t := by
  cases i with
  | add a b d => exact ⟨_, rfl, .add a b d s⟩
  | nand a b d => exact ⟨_, rfl, .nand a b d s⟩
  | lw a b o =>
    obtain ⟨c, hc, he⟩ | ⟨hc, he⟩ := exec_lw_cases a b o s
    · exact ⟨_, he, .lwLoads a b o s c hc⟩
    · exact ⟨_, he, .lwHalts a b o s hc⟩
  | sw a b o =>
    obtain ⟨c, hc, he⟩ | ⟨hc, he⟩ := exec_sw_cases a b o s
    · exact ⟨_, he, .swStores a b o s c hc⟩
    · exact ⟨_, he, .swHalts a b o s hc⟩
  | beq a b o =>
    by_cases h : s.readReg a = s.readReg b
    · exact ⟨_, if_pos h, .beqTaken a b o s h⟩
    · exact ⟨_, if_neg h, .beqNotTaken a b o s h⟩
  | jalr a b =>
    by_cases h : a = b
    · subst h; exact ⟨_, if_pos rfl, .jalrLinks a s⟩
    · exact ⟨_, exec_jalr_jump h s, .jalrJumps a b s h⟩
  | halt => exact ⟨_, rfl, .halt s⟩
  | noop => exact ⟨_, rfl, .noop s⟩
  | fill v => exact nomatch hi

theorem Executes.exec_eq {i : Instr} {s t : State} (h : Executes i s t) : exec i s = .next t := by
  cases h with
  | lwLoads a b o s c hc => simp [exec, execLw, hc]
  | lwHalts a b o s hc => simp [exec, execLw, hc]
  | swStores a b o s c hc => simp [exec, execSw, hc]
  | swHalts a b o s hc => simp [exec, execSw, hc]
  | beqTaken a b o s h => exact if_pos h
  | beqNotTaken a b o s h => exact if_neg h
  | jalrLinks a s => exact if_pos rfl
  | jalrJumps a b s h => exact exec_jalr_jump h s
  | _ => rfl

/-- The executor of an instruction answers exactly what `Executes` lists. -/
theorem exec_eq_next_iff {i : Instr} (hi : i.isInstruction = true) {s t : State} :
    exec i s = .next t ↔ Executes i s t := by
  refine ⟨fun h => ?_, Executes.exec_eq⟩
  obtain ⟨u, hu, he⟩ := exists_executes hi s
  obtain rfl : u = t := by simpa [hu] using h
  exact he

/-- A raw word runs as the instruction it decodes to (R92). -/
theorem exec_fill {v : Word} {i : Instr} (h : decode v = .instr i) (s : State) :
    exec (.fill v) s = exec i s := by
  have hop : opcodeOf v < 8 := opcodeOf_lt v
  simp only [exec, execFill]
  unfold decode at h
  interval_cases opcodeOf v
  all_goals cases h; rfl

/-- Whatever row `exec` is given, `.fill` included, its answer is that of an instruction. -/
theorem executes_of_exec {i : Instr} {s t : State} (h : exec i s = .next t) :
    ∃ j, Executes j s t := by
  cases hi : i.isInstruction with
  | true => exact ⟨i, (exec_eq_next_iff hi).mp h⟩
  | false =>
    cases i with
    | fill v =>
      obtain ⟨j, hj, hji, -⟩ := decode_eq_instr v
      exact ⟨j, (exec_eq_next_iff hji).mp (exec_fill hj s ▸ h)⟩
    | _ => cases hi

/-- An answered step is an execution of the decoded instruction on the staged state, then parts 5 to 7
(R250). -/
theorem step_eq_next_iff {s t : State} :
    step s = .next t ↔ s.halted = false ∧
      ∃ i u, decode s.fetch = .instr i ∧ Executes i s.stage u ∧ t = u.finish := by
  constructor
  · intro h
    obtain ⟨hrun, ⟨i, u, hd, he, ht⟩ | ⟨op, hd, -⟩⟩ := step_next h
    · exact ⟨hrun, i, u, hd, (exec_eq_next_iff (instr_of_decode hd).1).mp he, ht⟩
    · exact absurd hd (decode_ne_illegalOpcode _ _)
  · rintro ⟨hrun, i, u, hd, he, rfl⟩
    rw [step_running hrun, hd]
    simp [he.exec_eq, finishOutcome]

/-! ### What an executor keeps, field by field -/

section
variable {i : Instr} {s t : State}

theorem Executes.nloaded_eq (h : Executes i s t) : t.nloaded = s.nloaded := by
  cases h <;> rfl

theorem Executes.executed_eq (h : Executes i s t) : t.executed = s.executed := by
  cases h <;> rfl

/-- A register write leaves cell 0 of the register file alone (R21 b). -/
@[simp] theorem writeReg_regs_zero (s : State) (r : Reg) (v : Word) :
    (s.writeReg r v).regs[0] = s.regs[0] := by
  have h := regs_writeReg s r 0 v
  rwa [if_neg fun hr => hr.2 hr.1.symm] at h

theorem Executes.regs_zero_eq (h : Executes i s t) : t.regs[0] = s.regs[0] := by
  cases h with
  | add | nand | lwLoads | jalrLinks => exact writeReg_regs_zero _ _ _
  | jalrJumps a b s _ => exact writeReg_regs_zero s b s.link
  | _ => rfl

/-- R22's column of writes: instruction `i`, run in `s`, may write register `k`. -/
def MayWriteReg (i : Instr) (s : State) (k : Reg) : Prop :=
  (∃ a b, i = .add a b k) ∨ (∃ a b, i = .nand a b k) ∨
  (∃ a o, i = .lw a k o ∧ 0 ≤ s32 (s.readReg a) + o ∧ s32 (s.readReg a) + o ≤ 65535) ∨
  ∃ a, i = .jalr a k

theorem eq_of_writeReg_changes {r k : Reg} {v : Word} (h : (s.writeReg r v).regs[k] ≠ s.regs[k]) :
    r = k := by
  by_contra hrk
  exact h (by rw [regs_writeReg, if_neg fun hk => hrk hk.1.symm])

theorem Executes.mayWriteReg (h : Executes i s t) {k : Reg} (hk : t.regs[k] ≠ s.regs[k]) :
    MayWriteReg i s k := by
  cases h with
  | add a b d => obtain rfl := eq_of_writeReg_changes hk; exact .inl ⟨a, b, rfl⟩
  | nand a b d => obtain rfl := eq_of_writeReg_changes hk; exact .inr (.inl ⟨a, b, rfl⟩)
  | lwLoads a b o _ c hc =>
    obtain rfl := eq_of_writeReg_changes hk
    obtain ⟨hlow, hhigh, -⟩ := cellOf_eq_some.mp hc
    exact .inr (.inr (.inl ⟨a, o, rfl, hlow, hhigh⟩))
  | jalrLinks a => obtain rfl := eq_of_writeReg_changes hk; exact .inr (.inr (.inr ⟨a, rfl⟩))
  | jalrJumps a b =>
    obtain rfl := eq_of_writeReg_changes (s := s) (r := b) hk
    exact .inr (.inr (.inr ⟨a, rfl⟩))
  | _ => exact absurd rfl hk

theorem Executes.mem_wf (h : Executes i s t) (hm : s.mem.wf) : t.mem.wf := by
  cases h with
  | swStores a b o _ c hc => exact Memory.wf_write hm (cellOf_lt hc) _
  | _ => exact hm

/-- `i` is the LW or SW with these fields, and its effective address in `s` is outside memory (R54). -/
def AccessesOutside (i : Instr) (s : State) (a b : Reg) (o : Int) : Prop :=
  (i = .lw a b o ∨ i = .sw a b o) ∧ ¬ (0 ≤ s32 (s.readReg a) + o ∧ s32 (s.readReg a) + o ≤ 65535)

theorem not_accessesOutside_of_cellOf {a b : Reg} {o : Int} {c : Nat}
    (hi : i = .lw a b o ∨ i = .sw a b o) (hc : cellOf (s.effectiveAddress a o) = some c)
    (a' b' : Reg) (o' : Int) : ¬ AccessesOutside i s a' b' o' := by
  rintro ⟨hi', hout⟩
  obtain ⟨hlow, hhigh, -⟩ := cellOf_eq_some.mp hc
  obtain ⟨rfl, rfl, rfl⟩ : a = a' ∧ b = b' ∧ o = o' := by
    rcases hi with rfl | rfl <;> simpa using hi'
  exact hout ⟨hlow, hhigh⟩

theorem Executes.halts_iff (h : Executes i s t) (hs : s.halted = false) :
    t.halted = true ↔ i = .halt ∨ ∃ a b o, AccessesOutside i s a b o := by
  cases h with
  | lwHalts a b o _ hc =>
    exact iff_of_true rfl (.inr ⟨a, b, o, .inl rfl, cellOf_eq_none.mp hc⟩)
  | swHalts a b o _ hc =>
    exact iff_of_true rfl (.inr ⟨a, b, o, .inr rfl, cellOf_eq_none.mp hc⟩)
  | halt => exact iff_of_true rfl (.inl rfl)
  | lwLoads a b o _ c hc =>
    have := not_accessesOutside_of_cellOf (b := b) (.inl rfl) hc
    simp [hs, this]
  | swStores a b o _ c hc =>
    have := not_accessesOutside_of_cellOf (b := b) (.inr rfl) hc
    simp [hs, this]
  | _ => simp [hs, AccessesOutside]

theorem Executes.fault_eq_or (h : Executes i s t) :
    t.fault = s.fault ∨ ∃ a b o, AccessesOutside i s a b o ∧
      t.fault = .invalidAddress (s32 (s.readReg a) + o) := by
  cases h with
  | lwHalts a b o _ hc => exact .inr ⟨a, b, o, ⟨.inl rfl, cellOf_eq_none.mp hc⟩, rfl⟩
  | swHalts a b o _ hc => exact .inr ⟨a, b, o, ⟨.inr rfl, cellOf_eq_none.mp hc⟩, rfl⟩
  | _ => exact .inl rfl

/-- The address of a well-formed access outside memory is one a fault record can hold: a signed word plus
a signed 16-bit offset (R28). -/
theorem AccessesOutside.possible {a b : Reg} {o : Int} (h : AccessesOutside i s a b o)
    (hwf : i.wellFormed = true) :
    (FaultRecord.invalidAddress (s32 (s.readReg a) + o)).possible := by
  obtain ⟨hi, hout⟩ := h
  obtain ⟨holow, hohigh⟩ : offsetInRange o := by
    rcases hi with rfl | rfl <;> exact of_decide_eq_true hwf
  have hlow : -2147483648 ≤ s32 (s.readReg a) := BitVec.le_toInt _
  have hhigh : s32 (s.readReg a) < 2147483648 := BitVec.toInt_lt
  exact ⟨hout, by omega, by omega⟩

end

/-! ### Hidden state -/

/-- `s` with other counts: the executed instructions (R26) and the loaded words (R30). -/
def State.withCounts (s : State) (e n : Nat) : State := { s with executed := e, nloaded := n }

/-- The two counts influence no executor and pass through it. -/
theorem Executes.withCounts {i : Instr} {s t : State} (h : Executes i s t) (e n : Nat) :
    Executes i (s.withCounts e n) (t.withCounts e n) := by
  cases h with
  | add a b d => exact .add a b d _
  | nand a b d => exact .nand a b d _
  | lwLoads a b o _ c hc => exact .lwLoads a b o _ c hc
  | lwHalts a b o _ hc => exact .lwHalts a b o _ hc
  | swStores a b o _ c hc => exact .swStores a b o _ c hc
  | swHalts a b o _ hc => exact .swHalts a b o _ hc
  | beqTaken a b o _ h => exact .beqTaken a b o _ h
  | beqNotTaken a b o _ h => exact .beqNotTaken a b o _ h
  | jalrLinks a => exact .jalrLinks a _
  | jalrJumps a b _ h => exact .jalrJumps a b _ h
  | halt => exact .halt _
  | noop => exact .noop _

/-! ### The invariant -/

theorem finish_regs_zero (s : State) : s.finish.regs[0] = 0#32 := by simp

/-- An executor keeps the invariant of a running machine. -/
theorem Executes.inv_finish {i : Instr} {s t : State} (h : Executes i s t)
    (hwf : i.wellFormed = true) (hrun : s.halted = false) (hs : s.Inv) : t.finish.Inv where
  zero := finish_regs_zero t
  faultHalts hf := by
    have hnone : s.fault = .none := by
      by_contra hne
      simp [hs.faultHalts hne] at hrun
    obtain hkept | ⟨a, b, o, hout, -⟩ := h.fault_eq_or
    · exact absurd (hkept.trans hnone) hf
    · exact (h.halts_iff hrun).mpr (.inr ⟨a, b, o, hout⟩)
  faultPossible := by
    obtain hkept | ⟨a, b, o, hout, hfault⟩ := h.fault_eq_or
    · simpa [hkept] using hs.faultPossible
    · simpa [hfault] using hout.possible hwf
  memWf := h.mem_wf hs.memWf
  loadedFits := h.nloaded_eq.trans_le hs.loadedFits

theorem State.Inv.stage {s : State} (h : s.Inv) : s.stage.Inv :=
  ⟨h.zero, h.faultHalts, h.faultPossible, h.memWf, h.loadedFits⟩

/-- The machine right after reset with an image's cells satisfies the invariant. -/
theorem reset_withImage_inv {m : Memory} {n : Nat} (hm : m.wf) (hn : n ≤ Config.memSize) :
    State.Inv { State.reset with mem := m, nloaded := n } where
  zero := by simp [State.reset]
  faultHalts h := absurd rfl h
  faultPossible := trivial
  memWf := hm
  loadedFits := hn

/-- What a load that answers has checked and built (R280, R282). -/
theorem load_eq_ok {image : List Int} {s : State} (h : load image = .ok s) :
    image.length ≤ Config.memSize ∧
      s = { State.reset with mem := imageCells 0 image, nloaded := image.length } := by
  unfold load at h
  split at h
  · cases h
  · split at h
    · next hlen => cases h; exact ⟨hlen, rfl⟩
    · cases h

/-! ### The obligations on the state -/

/-- Settles O34: the decoded instruction's executor keeps the invariant, whichever case it takes. -/
theorem everyStepKeepsTheMachineInvariant : Obligations.EveryStepKeepsTheMachineInvariant := by
  intro s t hs hstep
  obtain ⟨hrun, i, u, hd, he, rfl⟩ := step_eq_next_iff.mp hstep
  exact ⟨he.inv_finish (instr_of_decode hd).2 hrun hs.stage, he.nloaded_eq,
    congrArg (· + 1) he.executed_eq⟩

/-- Settles O24: no executor writes cell 0 of the register file, and every step ends by forcing it. -/
theorem registerZeroIsHardwired : Obligations.RegisterZeroIsHardwired := by
  refine ⟨readReg_zero, fun s v => rfl, fun i s t h0 h => ?_, fun s t h => ?_⟩
  · obtain ⟨j, he⟩ := executes_of_exec h
    have ht : t.regs.set 0 0#32 = t.regs := set_zero_of_zero (he.regs_zero_eq.trans h0)
    simp only [State.forceZero, ht]
  · obtain ⟨-, i, u, -, -, rfl⟩ := step_eq_next_iff.mp h
    exact finish_regs_zero u

/-- Settles O25: by the cases of `Executes`, of which five write a register. -/
theorem onlyTheDestinationRegisterChanges : Obligations.OnlyTheDestinationRegisterChanges := by
  intro s t k hstep hk hne
  obtain ⟨-, i, u, hd, he, rfl⟩ := step_eq_next_iff.mp hstep
  rw [regs_finish u hk] at hne
  simpa [MayWriteReg, hd] using he.mayWriteReg (k := k) hne

/-- Settles O27: by the cases of `Executes`, of which three halt and two of these leave a record. -/
theorem onlyHaltAndBadAddressesHalt : Obligations.OnlyHaltAndBadAddressesHalt := by
  intro s t hstep
  obtain ⟨hrun, i, u, hd, he, rfl⟩ := step_eq_next_iff.mp hstep
  constructor
  · simpa only [AccessesOutside, hd, Decoded.instr.injEq, readReg_stage, State.finish_halted]
      using he.halts_iff hrun
  · simpa only [AccessesOutside, hd, Decoded.instr.injEq, readReg_stage, State.finish_fault,
      State.stage_fault, and_assoc]
      using he.fault_eq_or

/-- Settles O33: staging overwrites the old npc, and no case of `Executes` reads the two counts. -/
theorem hiddenStateAffectsNoStep : Obligations.HiddenStateAffectsNoStep := by
  intro s t v e n hstep
  obtain ⟨hrun, i, u, hd, he, rfl⟩ := step_eq_next_iff.mp hstep
  exact step_eq_next_iff.mpr ⟨hrun, i, u.withCounts e n, hd, he.withCounts e n, rfl⟩

/-- Settles O39: a load is reset with the image's cells, which are in canonical form. -/
theorem loadedMachineSatisfiesTheInvariant : Obligations.LoadedMachineSatisfiesTheInvariant := by
  intro image s h
  obtain ⟨hlen, rfl⟩ := load_eq_ok h
  exact reset_withImage_inv (imageCells_wf hlen) hlen

/-- Settles O35: reset is a load of the empty image. -/
theorem resetSatisfiesTheMachineInvariant : Obligations.ResetSatisfiesTheMachineInvariant :=
  reset_withImage_inv Memory.wf_nil (Nat.zero_le _)

/-- Settles O36: by evaluation, register by register. -/
theorem resetStateIsAsTabulated : Obligations.ResetStateIsAsTabulated :=
  ⟨rfl, by decide, fun _ => rfl, rfl, rfl, rfl, rfl, rfl⟩

end Sys2Proof.Machine

/-! Memory's family (20_memory.md): what a step of SW and of LW can do, and from it who writes memory, that a
store is seen by the next fetch and the next load, and the width of address arithmetic. -/

namespace Sys2Proof.Machine

/-! ### Steps of SW and of LW -/

section
variable {s t : State} {a b : Reg} {o : Int}

/-- `step_eq_next_iff` at a known decoded instruction. -/
theorem executes_of_step {i : Instr} (h : step s = .next t) (hd : decode s.fetch = .instr i) :
    s.halted = false ∧ ∃ u, Executes i s.stage u ∧ t = u.finish := by
  obtain ⟨hrun, j, u, hj, he, ht⟩ := step_eq_next_iff.mp h
  obtain rfl : i = j := by simpa [hd] using hj
  exact ⟨hrun, u, he, ht⟩

/-- A whole step of SW: the store, or the controlled halt (R212). -/
theorem step_sw_cases (h : step s = .next t) (hd : decode s.fetch = .instr (.sw a b o)) :
    (∃ c, cellOf (s.effectiveAddress a o) = some c ∧
        t = (s.stage.memWrite c (s.readReg b)).finish) ∨
      (cellOf (s.effectiveAddress a o) = none ∧
        t = (s.stage.raiseInvalidAddress (s.effectiveAddress a o)).finish) := by
  obtain ⟨-, u, he, rfl⟩ := executes_of_step h hd
  cases he with
  | swStores _ _ _ _ c hc => exact .inl ⟨c, by simpa using hc, by simp⟩
  | swHalts _ _ _ _ hc => exact .inr ⟨by simpa using hc, by simp⟩

/-- A whole step of LW: the load, or the controlled halt (R210). -/
theorem step_lw_cases (h : step s = .next t) (hd : decode s.fetch = .instr (.lw a b o)) :
    (∃ c, cellOf (s.effectiveAddress a o) = some c ∧
        t = (s.stage.writeReg b (s.memRead c)).finish) ∨
      (cellOf (s.effectiveAddress a o) = none ∧
        t = (s.stage.raiseInvalidAddress (s.effectiveAddress a o)).finish) := by
  obtain ⟨-, u, he, rfl⟩ := executes_of_step h hd
  cases he with
  | lwLoads _ _ _ _ c hc => exact .inl ⟨c, by simpa using hc, rfl⟩
  | lwHalts _ _ _ _ hc => exact .inr ⟨by simpa using hc, by simp⟩

/-- After a step of SW that did not halt, the addressed cell reads as the source register's word. -/
theorem read_after_sw (h : step s = .next t) (hd : decode s.fetch = .instr (.sw a b o))
    (ht : t.halted = false) :
    ∃ c, cellOf (s.effectiveAddress a o) = some c ∧ Memory.read t.mem c = s.readReg b := by
  obtain ⟨c, hc, rfl⟩ | ⟨-, rfl⟩ := step_sw_cases h hd
  · exact ⟨c, hc, Memory.read_write_same _ _ _⟩
  · exact nomatch ht

/-- After a step of LW whose address names a cell, the destination register holds the cell's word. -/
theorem regs_after_lw (h : step s = .next t) (hd : decode s.fetch = .instr (.lw a b o)) (hb : b ≠ 0)
    {c : Nat} (hc : cellOf (s.effectiveAddress a o) = some c) :
    t.regs[b] = Memory.read s.mem c := by
  obtain ⟨c', hc', rfl⟩ | ⟨hnone, -⟩ := step_lw_cases h hd
  · obtain rfl : c = c' := by simpa [hc] using hc'
    rw [regs_finish _ hb, regs_writeReg, if_pos ⟨rfl, hb⟩, State.memRead]
  · exact absurd hnone (by simp [hc])

/-- A fetch inside memory reads the cell the program counter names (R181). -/
theorem fetch_of_cellOf {c : Nat} (hc : cellOf (s32 s.pc) = some c) :
    s.fetch = Memory.read s.mem c := by
  simp [State.fetch, hc, State.memRead]

/-- SW is the one executor that writes memory, and it writes the one cell it addresses (R51, R53). -/
theorem Executes.eq_sw_of_read_ne {i : Instr} (h : Executes i s t) {c : Nat}
    (hne : Memory.read t.mem c ≠ Memory.read s.mem c) :
    ∃ a b o, i = .sw a b o ∧ s32 (s.readReg a) + o = (c : Int) ∧ c ≤ 65535 := by
  cases h with
  | swStores a b o _ c' hc' =>
    obtain rfl : c = c' := by
      by_contra hcc
      exact hne (Memory.read_write_other _ _ hcc)
    obtain ⟨hlow, hhigh, hcell⟩ := cellOf_eq_some.mp hc'
    rw [State.effectiveAddress] at hlow hhigh hcell
    exact ⟨a, b, o, rfl, by omega, by omega⟩
  | _ => exact absurd rfl hne

end

/-! ### Address arithmetic -/

/-- A word sum with a wrapped integer reads as the integer sum, wrapped once. -/
theorem s32_add_wrap32 (v : Word) (n : Int) :
    s32 (v + wrap32 n) = (s32 v + n).bmod 4294967296 := by
  simp [s32, wrap32, BitVec.toInt_add, BitVec.toInt_ofInt]

/-- Wrapping to a signed word keeps the cell an address names, as long as the address is less than one
whole turn away from memory on either side. -/
theorem cellOf_bmod {addr : Int} (hlow : -4294901760 ≤ addr) (hhigh : addr < 4294967296) :
    cellOf (addr.bmod 4294967296) = cellOf addr := by
  by_cases hin : 0 ≤ addr ∧ addr ≤ 65535
  · have hsame : addr.bmod 4294967296 = addr := by simp only [Int.bmod]; omega
    rw [hsame]
  · have hout : ¬ (0 ≤ addr.bmod 4294967296 ∧ addr.bmod 4294967296 ≤ 65535) := by
      simp only [Int.bmod]; omega
    rw [cellOf_eq_none.mpr hin, cellOf_eq_none.mpr hout]

/-! ### The obligations on memory -/

/-- Settles O26: no executor but SW's store touches memory, and ending a step leaves memory alone. -/
theorem onlySwChangesMemory : Obligations.OnlySwChangesMemory := by
  intro s t c hstep hne
  obtain ⟨-, i, u, hd, he, rfl⟩ := step_eq_next_iff.mp hstep
  simpa [hd] using he.eq_sw_of_read_ne (c := c) hne

/-- Settles O30: a signed word plus a 16-bit offset stays less than one turn of 2^32 away from memory. -/
theorem wrappedAddressGivesTheSameVerdict : Obligations.WrappedAddressGivesTheSameVerdict := by
  rintro a o s ⟨holow, hohigh⟩
  have hlow : -2147483648 ≤ s32 (s.readReg a) := BitVec.le_toInt _
  have hhigh : s32 (s.readReg a) < 2147483648 := BitVec.toInt_lt
  rw [s32_add_wrap32, cellOf_bmod (by omega) (by omega), State.effectiveAddress]

/-- Settles O31: the store and the fetch are of the same cell. -/
theorem storedWordIsFetchedByTheNextStep : Obligations.StoredWordIsFetchedByTheNextStep := by
  intro s t a b o hstep hd hrun hpc
  obtain ⟨c, hc, hread⟩ := read_after_sw hstep hd hrun
  have hcell : cellOf (s32 t.pc) = some c := by rw [hpc]; exact hc
  exact (fetch_of_cellOf hcell).trans hread

/-- Settles O32: the second step shows that the SW did not halt, so it stored to the cell the LW loads. -/
theorem loadReturnsTheStoredWord : Obligations.LoadReturnsTheStoredWord := by
  intro s t u a b a' b' o o' hsw hdsw hlw hdlw hb' haddr
  have hrun : t.halted = false := (executes_of_step hlw hdlw).1
  obtain ⟨c, hc, hread⟩ := read_after_sw hsw hdsw hrun
  have hc' : cellOf (t.effectiveAddress a' o') = some c := by
    rw [State.effectiveAddress, ← haddr]; exact hc
  exact (regs_after_lw hlw hdlw hb' hc').trans hread

end Sys2Proof.Machine

/-! The encoding's family (30_encoding.md): what a mask leaves of a word, said once for one field; the masks
of each format from it; and from these the round trip, canonical words and the bits that are ignored. Last,
the data row, the zero word and blank source lines. -/

namespace Sys2Proof

/-! ### One field: a shift and a mask, or a mask alone -/

theorem bits_eq_shiftRight_and (w : Word) (hi lo : Nat) :
    bits w hi lo = (u32 w >>> lo) &&& (2 ^ (hi + 1 - lo) - 1) := by
  rw [Nat.and_two_pow_sub_one_eq_mod, Nat.shiftRight_eq_div_pow, bits]

theorem bits_eq_extractLsb' (w : Word) (hi lo : Nat) :
    bits w hi lo = (w.extractLsb' lo (hi + 1 - lo)).toNat := by
  rw [BitVec.extractLsb'_toNat, Nat.shiftRight_eq_div_pow, bits]

/-- Words that agree under a mask agree on every field that lies inside the mask. -/
theorem bits_eq_of_and_eq {v w m : Word} {hi lo : Nat} (h : v &&& m = w &&& m)
    (hm : m.extractLsb' lo (hi + 1 - lo) = BitVec.allOnes _) : bits v hi lo = bits w hi lo := by
  have hfield := congrArg (BitVec.extractLsb' lo (hi + 1 - lo)) h
  simp only [BitVec.extractLsb'_and, hm, BitVec.and_allOnes] at hfield
  rw [bits_eq_extractLsb', bits_eq_extractLsb', hfield]

/-- A mask that is exactly one field leaves that field in its place. -/
theorem u32_and_fieldMask (w : Word) {hi lo : Nat} {m : Word}
    (hm : u32 m = (2 ^ (hi + 1 - lo) - 1) * 2 ^ lo) : u32 (w &&& m) = bits w hi lo * 2 ^ lo := by
  apply Nat.eq_of_testBit_eq
  intro i
  rw [u32, BitVec.toNat_and, show m.toNat = _ from hm, Nat.testBit_and, bits,
    Nat.testBit_mul_two_pow, Nat.testBit_mul_two_pow, Nat.testBit_two_pow_sub_one,
    Nat.testBit_mod_two_pow, Nat.testBit_div_two_pow]
  by_cases hlo : lo ≤ i
  · simp [hlo, Bool.and_comm]
  · simp [hlo]

/-- What two masks without a common bit leave adds up. -/
theorem u32_and_or (w : Word) {m n : Word} (h : m &&& n = 0#32) :
    u32 (w &&& (m ||| n)) = u32 (w &&& m) + u32 (w &&& n) := by
  have hdisj : (w &&& m) &&& (w &&& n) = 0#32 := by
    calc (w &&& m) &&& (w &&& n) = w &&& w &&& (m &&& n) := by ac_rfl
      _ = 0#32 := by rw [h, BitVec.and_zero]
  rw [BitVec.and_or_distrib_left, ← BitVec.add_eq_or_of_and_eq_zero _ _ hdisj]
  exact BitVec.toNat_add_of_and_eq_zero hdisj

theorem u32_and_add_u32_and_not (w m : Word) : u32 (w &&& m) + u32 (w &&& ~~~m) = u32 w := by
  rw [← u32_and_or w (BitVec.and_not_self m), BitVec.or_not_self, BitVec.and_allOnes]

/-! ### The fields by value -/

theorem val_regAOf (w : Word) : (regAOf w).val = bits w 21 19 :=
  Nat.mod_eq_of_lt (bits_lt w 21 19)

theorem val_regBOf (w : Word) : (regBOf w).val = bits w 18 16 :=
  Nat.mod_eq_of_lt (bits_lt w 18 16)

theorem val_destRegOf (w : Word) : (destRegOf w).val = bits w 2 0 :=
  Nat.mod_eq_of_lt (bits_lt w 2 0)

theorem sext16_eq_toInt (v : BitVec 16) : sext16 v.toNat = v.toInt := by
  rw [BitVec.toInt_eq_toNat_cond, sext16]
  split <;> split <;> omega

theorem offsetField_sext16 {v : Nat} (h : v < 65536) : offsetField (sext16 v) = v := by
  unfold offsetField sext16
  split <;> omega

theorem offsetField_offsetOf (w : Word) : offsetField (offsetOf w) = bits w 15 0 :=
  offsetField_sext16 (bits_lt w 15 0)

/-! ### The bits under a format's mask, and the bits outside it -/

theorem u32_and_opcodeMask (w : Word) : u32 (w &&& 0x01C00000#32) = opcodeOf w * 4194304 :=
  u32_and_fieldMask (hi := 24) (lo := 22) w rfl

theorem u32_and_registersMask (w : Word) :
    u32 (w &&& 0x003F0000#32) = regAOf w * 524288 + regBOf w * 65536 := by
  have hsplit := u32_and_or w (m := 0x00380000#32) (n := 0x00070000#32) rfl
  rw [u32_and_fieldMask (m := 0x00380000#32) (hi := 21) (lo := 19) w rfl,
    u32_and_fieldMask (m := 0x00070000#32) (hi := 18) (lo := 16) w rfl] at hsplit
  rwa [val_regAOf, val_regBOf]

/-- Packing a word's own R-type fields keeps the bits the format uses. -/
theorem u32_pack_rType (w : Word) {op : Nat} (hop : op < 8) :
    u32 (pack op (regAOf w) (regBOf w) (destRegOf w)) =
      op * 4194304 + u32 (w &&& ~~~canonicalMask 0) := by
  have hsplit := u32_and_or w (m := 0x003F0000#32) (n := 7#32) rfl
  rw [u32_and_registersMask, u32_and_fieldMask (m := 7#32) (hi := 2) (lo := 0) w rfl,
    ← val_destRegOf] at hsplit
  rw [u32_pack hop (regAOf w).isLt (regBOf w).isLt ((destRegOf w).isLt.trans (by decide)),
    show ~~~canonicalMask 0 = 0x003F0000#32 ||| 7#32 from rfl, hsplit]
  omega

/-- Packing a word's own I-type fields keeps the bits the format uses. -/
theorem u32_pack_iType (w : Word) {op : Nat} (hop : op < 8) :
    u32 (pack op (regAOf w) (regBOf w) (offsetField (offsetOf w))) =
      op * 4194304 + u32 (w &&& ~~~canonicalMask 2) := by
  have hsplit := u32_and_or w (m := 0x003F0000#32) (n := 0xFFFF#32) rfl
  rw [u32_and_registersMask, u32_and_fieldMask (m := 0xFFFF#32) (hi := 15) (lo := 0) w rfl,
    ← offsetField_offsetOf] at hsplit
  rw [u32_pack hop (regAOf w).isLt (regBOf w).isLt (offsetField_lt _),
    show ~~~canonicalMask 2 = 0x003F0000#32 ||| 0xFFFF#32 from rfl, hsplit]
  omega

/-- Packing a word's own J-type fields keeps the bits the format uses. -/
theorem u32_pack_jType (w : Word) {op : Nat} (hop : op < 8) :
    u32 (pack op (regAOf w) (regBOf w) 0) = op * 4194304 + u32 (w &&& ~~~canonicalMask 5) := by
  rw [u32_pack hop (regAOf w).isLt (regBOf w).isLt (by decide),
    show ~~~canonicalMask 5 = 0x003F0000#32 from rfl, u32_and_registersMask]
  omega

/-- The O-type format uses no bit but the opcode's. -/
theorem u32_pack_oType (w : Word) {op : Nat} (hop : op < 8) :
    u32 (pack op 0 0 0) = op * 4194304 + u32 (w &&& ~~~canonicalMask 6) := by
  rw [u32_pack hop (by decide) (by decide) (by decide), show ~~~canonicalMask 6 = 0#32 from rfl]
  simp

/-- Encoding a decoded word keeps the opcode and the bits its format uses, and clears the others. -/
theorem u32_encode_of_decode {w : Word} {i : Instr} (h : decode w = .instr i) :
    u32 (encode i) = opcodeOf w * 4194304 + u32 (w &&& ~~~canonicalMask (opcodeOf w)) := by
  have hop : opcodeOf w < 8 := opcodeOf_lt w
  unfold decode at h
  interval_cases opcodeOf w
  all_goals cases h
  · exact u32_pack_rType w (by decide)
  · exact u32_pack_rType w (by decide)
  · exact u32_pack_iType w (by decide)
  · exact u32_pack_iType w (by decide)
  · exact u32_pack_iType w (by decide)
  · exact u32_pack_jType w (by decide)
  · exact u32_pack_oType w (by decide)
  · exact u32_pack_oType w (by decide)

/-! ### Canonical words -/

/-- A word is canonical iff it is its opcode and the bits its format uses, and nothing else. -/
theorem isCanonical_iff (w : Word) : isCanonical w = true ↔
    u32 w = opcodeOf w * 4194304 + u32 (w &&& ~~~canonicalMask (opcodeOf w)) := by
  have hop : opcodeOf w < 8 := opcodeOf_lt w
  have hparts := u32_and_add_u32_and_not w (canonicalMask (opcodeOf w))
  rw [isCanonical, beq_iff_eq, ← BitVec.toNat_inj, BitVec.toNat_ofNat, Config.opcodeLow]
  simp only [u32] at hparts ⊢
  omega

/-- The second half of R93. -/
theorem encode_eq_iff_isCanonical {w : Word} {i : Instr} (h : decode w = .instr i) :
    encode i = w ↔ isCanonical w = true := by
  rw [isCanonical_iff, ← u32_encode_of_decode h, ← BitVec.toNat_inj, eq_comm]

/-- No format uses a bit above the opcode's. -/
theorem u32_not_canonicalMask_lt (op : Nat) : u32 (~~~canonicalMask op) < 4194304 := by
  unfold canonicalMask
  split <;> decide

theorem u32_lt_of_isCanonical {w : Word} (h : isCanonical w = true) : u32 w < 33554432 := by
  have hop : opcodeOf w < 8 := opcodeOf_lt w
  have hused : u32 (w &&& ~~~canonicalMask (opcodeOf w)) < 4194304 := by
    rw [u32, BitVec.toNat_and]
    exact Nat.and_le_right.trans_lt (u32_not_canonicalMask_lt _)
  rw [(isCanonical_iff w).mp h]
  omega

/-! ### Decoding an encoded instruction -/

/-- The instruction with its offset read back from the 16-bit field it is packed in (R87): what decoding
its word gives, by `decode_encode`. -/
def Instr.signExtended : Instr → Instr
  | .lw a b o => .lw a b (sext16 (offsetField o))
  | .sw a b o => .sw a b (sext16 (offsetField o))
  | .beq a b o => .beq a b (sext16 (offsetField o))
  | i => i

theorem Instr.signExtended_of_wellFormed {i : Instr} (h : i.wellFormed = true) : i.signExtended = i := by
  cases i with
  | lw a b o => rw [signExtended, sext16_offsetField (of_decide_eq_true h)]
  | sw a b o => rw [signExtended, sext16_offsetField (of_decide_eq_true h)]
  | beq a b o => rw [signExtended, sext16_offsetField (of_decide_eq_true h)]
  | _ => rfl

theorem encode_signExtended (i : Instr) : encode i.signExtended = encode i := by
  cases i with
  | lw a b o => simp only [Instr.signExtended, encode, offsetField_sext16 (offsetField_lt o)]
  | sw a b o => simp only [Instr.signExtended, encode, offsetField_sext16 (offsetField_lt o)]
  | beq a b o => simp only [Instr.signExtended, encode, offsetField_sext16 (offsetField_lt o)]
  | _ => rfl

theorem val_lt_two_pow_16 (d : Reg) : d.val < 65536 := d.isLt.trans (by decide)

theorem destRegOf_pack_reg {op : Nat} (hop : op < 8) (a b d : Reg) : destRegOf (pack op a b d) = d := by
  rw [destRegOf_pack hop a.isLt b.isLt (val_lt_two_pow_16 d), Nat.mod_eq_of_lt d.isLt, Fin.ofNat_val_eq_self]

/-- What decoding the word of an instruction gives, well formed or not: every field reads back as packed. -/
theorem decode_encode {i : Instr} (hi : i.isInstruction = true) :
    decode (encode i) = .instr i.signExtended := by
  cases i with
  | fill v => cases hi
  | _ =>
    simp [encode, decode, dispatch, Instr.signExtended, opcodeOf_pack, regAOf_pack, regBOf_pack,
      destRegOf_pack_reg, offsetOf_pack, offsetField_lt, val_lt_two_pow_16]

/-! ### Bits a format does not use -/

/-- R89's decode mask. -/
theorem opcodeOf_eq_iff (w : Word) {k : Nat} (hk : k < 8) :
    opcodeOf w = k ↔ w &&& 0x01C00000#32 = BitVec.ofNat 32 (k <<< 22) := by
  rw [← BitVec.toNat_inj, BitVec.toNat_ofNat, Nat.shiftLeft_eq,
    show (w &&& 0x01C00000#32).toNat = _ from u32_and_opcodeMask w]
  omega

section
variable {v w m : Word} (h : v &&& m = w &&& m)
include h

theorem opcodeOf_eq_of_and_eq (hm : m.extractLsb' 22 3 = BitVec.allOnes 3) : opcodeOf v = opcodeOf w :=
  bits_eq_of_and_eq h hm

theorem regAOf_eq_of_and_eq (hm : m.extractLsb' 19 3 = BitVec.allOnes 3) : regAOf v = regAOf w :=
  congrArg (Fin.ofNat 8) (bits_eq_of_and_eq (hi := 21) h hm)

theorem regBOf_eq_of_and_eq (hm : m.extractLsb' 16 3 = BitVec.allOnes 3) : regBOf v = regBOf w :=
  congrArg (Fin.ofNat 8) (bits_eq_of_and_eq (hi := 18) h hm)

theorem destRegOf_eq_of_and_eq (hm : m.extractLsb' 0 3 = BitVec.allOnes 3) : destRegOf v = destRegOf w :=
  congrArg (Fin.ofNat 8) (bits_eq_of_and_eq (hi := 2) h hm)

theorem offsetOf_eq_of_and_eq (hm : m.extractLsb' 0 16 = BitVec.allOnes 16) : offsetOf v = offsetOf w :=
  congrArg sext16 (bits_eq_of_and_eq (hi := 15) h hm)

end

/-! Each format's mask holds the opcode and the fields that the format's rows of the dispatch table read. -/

section
variable {v w : Word}

theorem decode_eq_of_rType (hop : opcodeOf w < 2) (h : v &&& 0x01FF0007#32 = w &&& 0x01FF0007#32) :
    decode v = decode w := by
  rw [decode, decode, opcodeOf_eq_of_and_eq h (by decide)]
  have ha : regAOf v = regAOf w := regAOf_eq_of_and_eq h (by decide)
  have hb : regBOf v = regBOf w := regBOf_eq_of_and_eq h (by decide)
  have hd : destRegOf v = destRegOf w := destRegOf_eq_of_and_eq h (by decide)
  interval_cases opcodeOf w <;> simp only [dispatch, ha, hb, hd]

theorem decode_eq_of_iType (hlow : 2 ≤ opcodeOf w) (hhigh : opcodeOf w < 5)
    (h : v &&& 0x01FFFFFF#32 = w &&& 0x01FFFFFF#32) : decode v = decode w := by
  rw [decode, decode, opcodeOf_eq_of_and_eq h (by decide)]
  have ha : regAOf v = regAOf w := regAOf_eq_of_and_eq h (by decide)
  have hb : regBOf v = regBOf w := regBOf_eq_of_and_eq h (by decide)
  have ho : offsetOf v = offsetOf w := offsetOf_eq_of_and_eq h (by decide)
  interval_cases opcodeOf w <;> simp only [dispatch, ha, hb, ho]

theorem decode_eq_of_jType (hop : opcodeOf w = 5) (h : v &&& 0x01FF0000#32 = w &&& 0x01FF0000#32) :
    decode v = decode w := by
  have ha : regAOf v = regAOf w := regAOf_eq_of_and_eq h (by decide)
  have hb : regBOf v = regBOf w := regBOf_eq_of_and_eq h (by decide)
  rw [decode, decode, opcodeOf_eq_of_and_eq h (by decide), hop]
  simp only [dispatch, ha, hb]

theorem decode_eq_of_oType (hop : 5 < opcodeOf w) (h : v &&& 0x01C00000#32 = w &&& 0x01C00000#32) :
    decode v = decode w := by
  have hlt : opcodeOf w < 8 := opcodeOf_lt w
  rw [decode, decode, opcodeOf_eq_of_and_eq h (by decide)]
  interval_cases opcodeOf w <;> rfl

end

/-! ### The obligations on encoding and decoding -/

/-- Settles O4: encoding a decoded word keeps its opcode and the bits its format uses, so it gives the word
back exactly when no other bit is set. -/
theorem decodeAndEncodeRoundTrip : Obligations.DecodeAndEncodeRoundTrip := by
  refine ⟨fun i hi hwf => ?_, fun w i h => encode_eq_iff_isCanonical h⟩
  rw [decode_encode hi, Instr.signExtended_of_wellFormed hwf]

/-- Settles O1, field by field. -/
theorem fieldsAreShiftedAndMasked : Obligations.FieldsAreShiftedAndMasked := by
  intro w
  refine ⟨bits_eq_shiftRight_and w 24 22, ?_, ?_, ?_, ?_⟩
  · rw [val_regAOf]; exact bits_eq_shiftRight_and w 21 19
  · rw [val_regBOf]; exact bits_eq_shiftRight_and w 18 16
  · rw [val_destRegOf]; exact bits_eq_shiftRight_and w 2 0
  · exact (congrArg sext16 (bits_eq_extractLsb' w 15 0)).trans (sext16_eq_toInt _)

/-- Settles O2: the opcode field has eight values, and the dispatch table a row for each. -/
theorem everyWordDecodesToAnInstruction : Obligations.EveryWordDecodesToAnInstruction :=
  decode_eq_instr

/-- Settles O3: each format's mask covers every field that the format's rows read. -/
theorem unusedBitsAreIgnored : Obligations.UnusedBitsAreIgnored :=
  ⟨fun w _ hk => opcodeOf_eq_iff w hk, fun _ _ =>
    ⟨decode_eq_of_rType, fun ⟨hlow, hhigh⟩ => decode_eq_of_iType hlow hhigh, decode_eq_of_jType,
      decode_eq_of_oType⟩⟩

/-- Settles O5: the word of an instruction is also the word of what it decodes to, so by the round trip it is
canonical. -/
theorem encodedInstructionsAreCanonical : Obligations.EncodedInstructionsAreCanonical := by
  intro i hi
  have hcanon : isCanonical (encode i) = true :=
    (encode_eq_iff_isCanonical (decode_encode hi)).mp (encode_signExtended i)
  exact ⟨hcanon, u32_lt_of_isCanonical hcanon⟩

end Sys2Proof

namespace Sys2Proof.Machine

theorem writeReg_zero (s : State) (v : Word) : s.writeReg 0 v = s := rfl

/-- A step whose executor does nothing: the fall-through is committed and the step counted. -/
theorem finish_stage_of_zero {s : State} (h : s.regs[0] = 0#32) :
    s.stage.finish = { s with
      pc := nextSequential s.pc, npc := nextSequential s.pc, executed := s.executed + 1 } := by
  have hregs : s.regs.set 0 0#32 = s.regs := set_zero_of_zero h
  simp only [State.finish, State.count, State.commitPc, State.forceZero, State.stage, State.setNpc, hregs]

/-! ### The obligations on raw words -/

/-- Settles O18: the data row runs as the instruction its word decodes to, and every instruction answers. -/
theorem fillWordRunsAsItDecodes : Obligations.FillWordRunsAsItDecodes := by
  intro v s
  obtain ⟨i, hd, hi, -⟩ := decode_eq_instr v
  obtain ⟨t, ht, -⟩ := exists_executes hi s
  exact ⟨i, t, hd, hi, (exec_fill hd s).trans ht, ht⟩

/-- Settles O29: the zero word is `add 0 0 0`, whose register write is suppressed. -/
theorem zeroWordOnlyAdvances : Obligations.ZeroWordOnlyAdvances := by
  intro s hrun h0 hfetch
  have hd : decode s.fetch = .instr (.add 0 0 0) := by rw [hfetch]; decide
  refine step_eq_next_iff.mpr ⟨hrun, _, _, hd, .add 0 0 0 s.stage, ?_⟩
  rw [writeReg_zero, finish_stage_of_zero h0]

end Sys2Proof.Machine

namespace Sys2Proof.Asm

/-! ### The obligation on blank lines -/

/-- White space alone holds no field. -/
theorem splitFields_of_whitespace {cs : List Char} (h : ∀ c ∈ cs, c.isWhitespace = true) :
    splitFields [] cs = [] := by
  induction cs with
  | nil => rfl
  | cons c rest ih =>
    obtain ⟨hc, hrest⟩ := List.forall_mem_cons.mp h
    simp [splitFields, closeField, hc, ih hrest]

theorem parseLine_of_blank {text : String}
    (h : ∀ c ∈ stripComment text.toList, c.isWhitespace = true) : parseLine text = none := by
  rw [parseLine, splitFields_of_whitespace h, parseFields]

/-- Settles O58: a blank line has no field, so it parses to no line. -/
theorem blankLinesTakeNoAddress : Obligations.BlankLinesTakeNoAddress :=
  fun _ _ hblank => List.filterMap_cons_none (parseLine_of_blank hblank)

end Sys2Proof.Asm

/-! The symbol table's family (40_symbol_table.md): when the check of one label passes and what one line does to
the table, and from them what pass 1 binds and when it succeeds; then where the errors of pass 2 point. -/

namespace Sys2Proof.Asm

/-! ### Legal labels -/

/-- The rule of R121 to R124 for one label on its own: what `checkLabel` asks beside the label being unbound
(`checkLabel_ok`). -/
def LegalLabel (t : String) : Prop :=
  t.toList.length ≤ 6 ∧ (∃ c cs, t.toList = c :: cs ∧ isLetter c = true) ∧
    (∀ c ∈ t.toList, isLetterOrDigit c = true) ∧ mnemonicOf t = none

/-- The digits come before the letters in character order. -/
theorem not_isDigit_of_isLetter {c : Char} (h : isLetter c = true) : c.isDigit = false := by
  have after_digits : '9' < c := by
    obtain ⟨hA, -⟩ | ⟨ha, -⟩ : ('A' ≤ c ∧ c ≤ 'Z') ∨ ('a' ≤ c ∧ c ≤ 'z') := of_decide_eq_true h
    · exact lt_of_lt_of_le (by decide) hA
    · exact lt_of_lt_of_le (by decide) ha
  have hval : ¬ c.val ≤ 57 := not_le.mpr after_digits
  simp [Char.isDigit, hval]

theorem lengthAndFirstOk_iff (t : String) : lengthAndFirstOk t = true ↔
    t.toList.length ≤ 6 ∧ ∃ c cs, t.toList = c :: cs ∧ isLetter c = true := by
  cases h : t.toList <;> simp [lengthAndFirstOk, h]

theorem charsetOk_iff (t : String) :
    charsetOk t = true ↔ ∀ c ∈ t.toList, isLetterOrDigit c = true := List.all_eq_true

/-- With a letter in front a label is not purely numeric, so only the nine names are left to refuse. -/
theorem reservedOrNumeric_of_letter {t : String} {c : Char} {cs : List Char} (ht : t.toList = c :: cs)
    (hc : isLetter c = true) : reservedOrNumeric t = (mnemonicOf t).isSome := by
  simp [reservedOrNumeric, ht, not_isDigit_of_isLetter hc]

theorem legalLabel_iff (t : String) : LegalLabel t ↔
    lengthAndFirstOk t = true ∧ charsetOk t = true ∧ reservedOrNumeric t = false := by
  rw [LegalLabel, ← and_assoc, ← lengthAndFirstOk_iff, ← charsetOk_iff]
  refine and_congr_right fun hfirst => and_congr_right fun _ => ?_
  obtain ⟨-, c, cs, ht, hc⟩ := (lengthAndFirstOk_iff t).mp hfirst
  simp [reservedOrNumeric_of_letter ht hc]

theorem checkLabel_ok {sym : SymTab} {i : Nat} {t : String} {u : Unit} :
    checkLabel sym i t = .ok u ↔ LegalLabel t ∧ sym.lookup t = none := by
  rw [legalLabel_iff, checkLabel]
  generalize sym.lookup t = bound
  split
  · next hfirst => simp_all
  · split
    · next hchars => simp_all
    · split
      · next hbound => simp [Option.isSome_iff_ne_none.mp hbound]
      · split
        · next hreserved => simp [hreserved]
        · simp_all

/-- A legal label is no numeric literal, so `resolve` looks it up. -/
theorem LegalLabel.numericLiteral_eq_none {t : String} (h : LegalLabel t) : numericLiteral t = none := by
  obtain ⟨-, ⟨c, cs, ht, hc⟩, -, -⟩ := h
  have hsign : c ≠ '-' := by rintro rfl; exact absurd hc (by decide)
  have hint : integerOf t = none := by
    simp [integerOf, ht, hsign, digitsValue, not_isDigit_of_isLetter hc]
  simp [numericLiteral, hint]

/-! ### What one line does in pass 1 -/

/-- The label a line binds: an empty label binds nothing (R128). -/
def labelOf (l : Line) : Option String := l.label.filter (· ≠ "")

theorem labelOf_eq_some {l : Line} {t : String} : labelOf l = some t ↔ l.label = some t ∧ t ≠ "" := by
  simp [labelOf, Option.filter_eq_some_iff]

theorem filterMap_labelOf (ls : List Line) :
    ls.filterMap labelOf = (ls.filterMap Line.label).filter (fun t => t ≠ "") :=
  List.filter_filterMap.symm

theorem mem_filterMap_labelOf {ls : List Line} {t : String} :
    t ∈ ls.filterMap labelOf ↔ ∃ l ∈ ls, l.label = some t ∧ t ≠ "" := by
  simp only [List.mem_filterMap, labelOf_eq_some]

section
variable {sym table : SymTab} {i : Nat} {l : Line} {rest : List Line} {t : String}

theorem buildFrom_of_no_label (h : labelOf l = none) :
    buildFrom sym i (l :: rest) = buildFrom sym (i + 1) rest := by
  rw [buildFrom]
  split
  · rfl
  · next t hl =>
    have ht : t = "" := by simpa [labelOf, hl] using h
    rw [if_pos ht]

theorem buildFrom_of_label (h : labelOf l = some t) :
    buildFrom sym i (l :: rest) =
      (checkLabel sym i t >>= fun _ => buildFrom ((t, i) :: sym) (i + 1) rest) := by
  obtain ⟨hl, ht⟩ := labelOf_eq_some.mp h
  simp only [buildFrom, hl, if_neg ht]
  cases checkLabel sym i t <;> rfl

theorem buildFrom_ok_of_label (h : labelOf l = some t) :
    buildFrom sym i (l :: rest) = .ok table ↔
      (LegalLabel t ∧ sym.lookup t = none) ∧ buildFrom ((t, i) :: sym) (i + 1) rest = .ok table := by
  simp only [buildFrom_of_label h, bind_ok, checkLabel_ok, exists_const]

theorem lookup_cons_eq_none {u : String} :
    List.lookup u ((t, i) :: sym) = none ↔ u ≠ t ∧ sym.lookup u = none := by
  by_cases h : u = t
  · simp [h]
  · simp only [List.lookup_cons, beq_false_of_ne h, ne_eq, h, not_false_eq_true, true_and]

theorem lookup_cons_eq_some {u : String} {a : Nat} (h : sym.lookup t = none) :
    List.lookup u ((t, i) :: sym) = some a ↔ sym.lookup u = some a ∨ (u = t ∧ a = i) := by
  by_cases hu : u = t
  · subst hu; simp [h, eq_comm]
  · simp [List.lookup_cons, beq_false_of_ne hu, hu]

end

/-! ### What pass 1 does -/

/-- Pass 1 goes through iff every label is legal, none is bound before it starts and none is bound twice. -/
theorem exists_buildFrom_ok_iff {sym : SymTab} {i : Nat} {ls : List Line} :
    (∃ table, buildFrom sym i ls = .ok table) ↔
      (∀ t ∈ ls.filterMap labelOf, LegalLabel t ∧ sym.lookup t = none) ∧
        (ls.filterMap labelOf).Nodup := by
  induction ls generalizing sym i with
  | nil => simp [buildFrom]
  | cons l rest ih =>
    cases hl : labelOf l with
    | none => simp only [buildFrom_of_no_label hl, List.filterMap_cons_none hl, ih]
    | some t =>
      simp only [buildFrom_ok_of_label hl, exists_and_left, ih, List.filterMap_cons_some hl,
        List.forall_mem_cons, List.nodup_cons, lookup_cons_eq_none]
      -- that `t` is bound while `rest` is passed is what keeps it from being a label of `rest`
      grind

/-- A name is bound after pass 1 iff it was bound before or is the label of a line passed. -/
theorem lookup_of_buildFrom {sym table : SymTab} {i : Nat} {ls : List Line}
    (h : buildFrom sym i ls = .ok table) {t : String} {a : Nat} :
    table.lookup t = some a ↔ sym.lookup t = some a ∨ ∃ l, (l, a) ∈ ls.zipIdx i ∧ labelOf l = some t := by
  induction ls generalizing sym i with
  | nil =>
    obtain rfl : sym = table := by simpa [buildFrom] using h
    simp
  | cons l rest ih =>
    cases hl : labelOf l with
    | none =>
      rw [ih (buildFrom_of_no_label hl ▸ h)]
      simp [or_and_right, exists_or, hl]
    | some u =>
      obtain ⟨⟨-, hnew⟩, hrest⟩ := (buildFrom_ok_of_label hl).mp h
      rw [ih hrest, lookup_cons_eq_some hnew]
      simp [or_and_right, exists_or, hl, or_assoc, eq_comm, and_comm]

section
variable {program : List Line} {sym : SymTab} (h : buildSymbols program = .ok sym) {t : String} {i : Nat}
include h

theorem lookup_of_buildSymbols :
    sym.lookup t = some i ↔ ∃ l, program[i]? = some l ∧ l.label = some t ∧ t ≠ "" := by
  simp [lookup_of_buildFrom h, List.mem_zipIdx_iff_getElem?, labelOf_eq_some]

theorem legalLabel_of_lookup (ht : sym.lookup t = some i) : LegalLabel t := by
  obtain ⟨l, hl, hlabel⟩ := (lookup_of_buildSymbols h).mp ht
  have hmem := mem_filterMap_labelOf.mpr ⟨l, List.mem_of_getElem? hl, hlabel⟩
  exact ((exists_buildFrom_ok_iff.mp ⟨sym, h⟩).1 t hmem).1

theorem resolve_of_lookup (ht : sym.lookup t = some i) (j : Nat) : resolve sym j t = .ok (i : Int) :=
  resolve_ok.mpr (.inr ⟨(legalLabel_of_lookup h ht).numericLiteral_eq_none, i, ht, rfl⟩)

end

/-! ### The obligations on pass 1 -/

/-- Settles O46: the table holds what the lines bind, and no bound name reads as a literal. -/
theorem labelsNameTheirLines : Obligations.LabelsNameTheirLines := by
  intro program sym h t i
  refine ⟨?_, fun l hl hlabel ht j => ?_⟩
  · rw [lookup_of_buildSymbols h]; tauto
  · exact resolve_of_lookup h ((lookup_of_buildSymbols h).mpr ⟨l, hl, hlabel, ht⟩) j

/-- Settles O47: pass 1 from the empty table, where no label is bound yet. -/
theorem symbolTableExistsExactlyWhenLabelsAreLegal :
    Obligations.SymbolTableExistsExactlyWhenLabelsAreLegal := by
  intro program
  rw [← filterMap_labelOf]
  refine exists_buildFrom_ok_iff.trans (and_congr_left fun _ => ?_)
  simp only [List.lookup_nil, and_true, mem_filterMap_labelOf]
  constructor
  · intro h l hl t hlabel ht
    exact h t ⟨l, hl, hlabel, ht⟩
  · rintro h t ⟨l, hl, hlabel, ht⟩
    exact h l hl t hlabel ht

/-! ### The line an error names -/

/-- A part of pass 2 puts no error on another line than `i` (R307). -/
def ErrorsAt {α : Type} (i : Nat) (x : Except AsmError α) : Prop := ∀ e, x = .error e → e.line = i

theorem ErrorsAt.ok {α : Type} (i : Nat) (a : α) : ErrorsAt i (.ok a) := nofun

theorem ErrorsAt.error {α : Type} {i : Nat} {e : AsmError} (h : e.line = i) :
    ErrorsAt i (.error e : Except AsmError α) := by
  rintro _ ⟨⟩; exact h

theorem bind_error {α β : Type} {x : Except AsmError α} {f : α → Except AsmError β} {e : AsmError} :
    (x >>= f) = .error e ↔ x = .error e ∨ ∃ a, x = .ok a ∧ f a = .error e := by
  cases x <;> simp [bind, Except.bind]

theorem ErrorsAt.bind {α β : Type} {i : Nat} {x : Except AsmError α} {f : α → Except AsmError β}
    (hx : ErrorsAt i x) (hf : ∀ a, ErrorsAt i (f a)) : ErrorsAt i (x >>= f) := fun e he =>
  (bind_error.mp he).elim (hx e) fun ⟨a, _, ha⟩ => hf a e ha

section
variable {sym : SymTab} {i : Nat} {t : String}

theorem resolve_errorsAt : ErrorsAt i (resolve sym i t) := by
  unfold resolve
  split
  · exact .ok i _
  · split
    · exact .ok i _
    · exact .error rfl

theorem registerField_errorsAt {v : Int} : ErrorsAt i (registerField i t v) := by
  unfold registerField
  split
  · exact .ok i _
  · exact .error rfl

theorem offsetFieldOf_errorsAt {o : Int} : ErrorsAt i (offsetFieldOf i t o) := by
  unfold offsetFieldOf
  split
  · exact .ok i _
  · exact .error rfl

/-- Every line format ends so: the word, once no operand is left over. -/
theorem noExcess_pure_errorsAt {ts : List String} {w : Word} :
    ErrorsAt i (noExcess i ts >>= fun _ => pure w) := by
  refine .bind ?_ fun _ => .ok i w
  cases ts
  · exact .ok i _
  · exact .error rfl

variable {op : Nat} {ops : List String}

theorem encodeFill_errorsAt : ErrorsAt i (encodeFill sym i t ops) := by
  unfold encodeFill
  split
  · exact .bind resolve_errorsAt fun _ => noExcess_pure_errorsAt
  · exact .error rfl

theorem encodeJType_errorsAt : ErrorsAt i (encodeJType op sym i t ops) := by
  unfold encodeJType
  split
  · exact .bind resolve_errorsAt fun _ => .bind resolve_errorsAt fun _ =>
      .bind registerField_errorsAt fun _ => .bind registerField_errorsAt fun _ =>
      noExcess_pure_errorsAt
  · exact .error rfl

theorem encodeRType_errorsAt : ErrorsAt i (encodeRType op sym i t ops) := by
  unfold encodeRType
  split
  · exact .bind resolve_errorsAt fun _ => .bind resolve_errorsAt fun _ =>
      .bind resolve_errorsAt fun _ => .bind registerField_errorsAt fun _ =>
      .bind registerField_errorsAt fun _ => .bind registerField_errorsAt fun _ =>
      noExcess_pure_errorsAt
  · exact .error rfl

theorem encodeIType_errorsAt {offset : Nat → String → Int → Int} :
    ErrorsAt i (encodeIType op offset sym i t ops) := by
  unfold encodeIType
  split
  · exact .bind resolve_errorsAt fun _ => .bind resolve_errorsAt fun _ =>
      .bind resolve_errorsAt fun _ => .bind registerField_errorsAt fun _ =>
      .bind registerField_errorsAt fun _ => .bind offsetFieldOf_errorsAt fun _ =>
      noExcess_pure_errorsAt
  · exact .error rfl

theorem encodeLine_errorsAt {l : Line} : ErrorsAt i (encodeLine sym i l) := by
  unfold encodeLine
  split
  · exact .error rfl
  · split
    · exact .error rfl
    · exact encodeRType_errorsAt
    · exact encodeRType_errorsAt
    · exact encodeIType_errorsAt
    · exact encodeIType_errorsAt
    · exact encodeIType_errorsAt
    · exact encodeJType_errorsAt
    · exact noExcess_pure_errorsAt
    · exact noExcess_pure_errorsAt
    · exact encodeFill_errorsAt

end

/-! ### The error of pass 2 -/

theorem encodeFrom_error_cons {sym : SymTab} {i : Nat} {l : Line} {rest : List Line} {e : AsmError} :
    encodeFrom sym i (l :: rest) = .error e ↔ encodeLine sym i l = .error e ∨
      (∃ w, encodeLine sym i l = .ok w) ∧ encodeFrom sym (i + 1) rest = .error e := by
  simp [encodeFrom, bind_error, pure, Except.pure]

/-- Pass 2 stops at the first line that does not encode, with that line's error. -/
theorem encodeFrom_error {sym : SymTab} {i : Nat} {ls : List Line} {e : AsmError}
    (h : encodeFrom sym i ls = .error e) :
    ∃ k l, ls[k]? = some l ∧ encodeLine sym (i + k) l = .error e ∧
      ∀ j m, j < k → ls[j]? = some m → ∃ w, encodeLine sym (i + j) m = .ok w := by
  induction ls generalizing i with
  | nil => exact nomatch h
  | cons l rest ih =>
    obtain hl | ⟨hl, hrest⟩ := encodeFrom_error_cons.mp h
    · exact ⟨0, l, rfl, hl, nofun⟩
    · obtain ⟨k, m, hm, herr, hbefore⟩ := ih hrest
      refine ⟨k + 1, m, hm, by rwa [← Nat.add_right_comm] at herr, fun j n hj hn => ?_⟩
      cases j with
      | zero =>
        obtain rfl : l = n := by simpa using hn
        exact hl
      | succ j => exact Nat.add_right_comm i 1 j ▸ hbefore j n (by omega) hn

/-- Settles O55: pass 2 runs only once pass 1 has succeeded, and its error names the line it stops at. -/
theorem firstErrorIsReported : Obligations.FirstErrorIsReported := by
  intro program e h
  obtain h | ⟨sym, hsym, h⟩ := bind_error.mp h
  · exact .inl h
  · obtain ⟨k, l, hl, herr, hbefore⟩ := encodeFrom_error h
    simp only [Nat.zero_add] at herr hbefore
    obtain rfl : e.line = k := encodeLine_errorsAt e herr
    exact .inr ⟨sym, hsym, l, hl, herr, hbefore⟩

end Sys2Proof.Asm

/-! The encoder's family (41_encoder.md): when a line of each format encodes and to which word; from them one
obligation a mnemonic, the branch law of R148, pass 2 over a whole program, and the output text. -/

namespace Sys2Proof.Asm

/-! ### Lines of each format -/

/-- A register field takes the eight register numbers and nothing else (R144). -/
theorem registerField_ok_iff_reg {i : Nat} {t : String} {v : Int} {n : Nat} :
    registerField i t v = .ok n ↔ ∃ a : Reg, v = (a.val : Int) ∧ n = a.val := by
  rw [registerField_ok]
  constructor
  · rintro ⟨hlow, hhigh, rfl⟩
    exact ⟨⟨v.toNat, by omega⟩, (Int.toNat_of_nonneg hlow).symm, rfl⟩
  · rintro ⟨a, rfl, rfl⟩
    have ha : a.val < 8 := a.isLt
    omega

section
variable {op i : Nat} {sym : SymTab} {written : String} {ops : List String} {w : Word}

theorem pure_ok {v : Word} : (pure v : Except AsmError Word) = .ok w ↔ w = v := by
  simp [pure, Except.pure, eq_comm]

theorem encodeOType_ok : encodeOType op i ops = .ok w ↔ ops = [] ∧ w = pack op 0 0 0 := by
  simp only [encodeOType, bind_ok, noExcess_ok, pure_ok, exists_const]

theorem encodeFill_ok : encodeFill sym i written ops = .ok w ↔
    ∃ (t0 : String) (v : Int), ops = [t0] ∧ resolve sym i t0 = .ok v ∧ w = wrap32 v := by
  constructor
  · intro h
    unfold encodeFill at h
    split at h
    · simp only [bind_ok, noExcess_ok, pure_ok, exists_const] at h
      obtain ⟨v, hv, rfl, hw⟩ := h
      exact ⟨_, v, rfl, hv, hw⟩
    · cases h
  · rintro ⟨t0, v, rfl, hv, hw⟩
    simpa only [encodeFill, bind_ok, noExcess_ok, pure_ok, exists_const, true_and] using ⟨v, hv, hw⟩

theorem encodeJType_ok : encodeJType op sym i written ops = .ok w ↔
    ∃ (t0 t1 : String) (a b : Reg), ops = [t0, t1] ∧ resolve sym i t0 = .ok (a.val : Int) ∧
      resolve sym i t1 = .ok (b.val : Int) ∧ w = pack op a b 0 := by
  constructor
  · intro h
    unfold encodeJType at h
    split at h
    · simp only [bind_ok, registerField_ok_iff_reg, noExcess_ok, pure_ok, exists_const] at h
      obtain ⟨_, ha, _, hb, _, ⟨a, rfl, rfl⟩, _, ⟨b, rfl, rfl⟩, rfl, hw⟩ := h
      exact ⟨_, _, a, b, rfl, ha, hb, hw⟩
    · cases h
  · rintro ⟨t0, t1, a, b, rfl, ha, hb, hw⟩
    simp only [encodeJType, bind_ok, registerField_ok_iff_reg, noExcess_ok, pure_ok, exists_const, true_and]
    exact ⟨_, ha, _, hb, _, ⟨a, rfl, rfl⟩, _, ⟨b, rfl, rfl⟩, hw⟩

theorem encodeRType_ok : encodeRType op sym i written ops = .ok w ↔
    ∃ (t0 t1 t2 : String) (a b d : Reg), ops = [t0, t1, t2] ∧ resolve sym i t0 = .ok (a.val : Int) ∧
      resolve sym i t1 = .ok (b.val : Int) ∧ resolve sym i t2 = .ok (d.val : Int) ∧
      w = pack op a b d := by
  constructor
  · intro h
    unfold encodeRType at h
    split at h
    · simp only [bind_ok, registerField_ok_iff_reg, noExcess_ok, pure_ok, exists_const] at h
      obtain ⟨_, ha, _, hb, _, hd, _, ⟨a, rfl, rfl⟩, _, ⟨b, rfl, rfl⟩, _, ⟨d, rfl, rfl⟩, rfl, hw⟩ := h
      exact ⟨_, _, _, a, b, d, rfl, ha, hb, hd, by rw [hw, Nat.mod_eq_of_lt d.isLt]⟩
    · cases h
  · rintro ⟨t0, t1, t2, a, b, d, rfl, ha, hb, hd, hw⟩
    simp only [encodeRType, bind_ok, registerField_ok_iff_reg, noExcess_ok, pure_ok, exists_const, true_and]
    exact ⟨_, ha, _, hb, _, hd, _, ⟨a, rfl, rfl⟩, _, ⟨b, rfl, rfl⟩, _, ⟨d, rfl, rfl⟩,
      by rw [hw, Nat.mod_eq_of_lt d.isLt]⟩

/-- The three mnemonics of the format differ only in the offset `o` their third token's value gives. -/
theorem encodeIType_ok {offset : Nat → String → Int → Int} :
    encodeIType op offset sym i written ops = .ok w ↔
    ∃ (t0 t1 t2 : String) (a b : Reg) (o : Int), ops = [t0, t1, t2] ∧
      resolve sym i t0 = .ok (a.val : Int) ∧ resolve sym i t1 = .ok (b.val : Int) ∧
      (∃ v, resolve sym i t2 = .ok v ∧ offset i t2 v = o) ∧
      -32768 ≤ o ∧ o ≤ 32767 ∧ w = pack op a b (offsetField o) := by
  constructor
  · intro h
    unfold encodeIType at h
    split at h
    · simp only [bind_ok, registerField_ok_iff_reg, offsetFieldOf_ok, noExcess_ok, pure_ok, exists_const] at h
      obtain ⟨_, ha, _, hb, v, hv, _, ⟨a, rfl, rfl⟩, _, ⟨b, rfl, rfl⟩, _, ⟨⟨hlow, hhigh⟩, rfl⟩, rfl, hw⟩ := h
      exact ⟨_, _, _, a, b, _, rfl, ha, hb, ⟨v, hv, rfl⟩, hlow, hhigh, hw⟩
    · cases h
  · rintro ⟨t0, t1, t2, a, b, o, rfl, ha, hb, ⟨v, hv, rfl⟩, hlow, hhigh, hw⟩
    simp only [encodeIType, bind_ok, registerField_ok_iff_reg, offsetFieldOf_ok, noExcess_ok, pure_ok,
      exists_const, true_and]
    exact ⟨_, ha, _, hb, v, hv, _, ⟨a, rfl, rfl⟩, _, ⟨b, rfl, rfl⟩, _, ⟨⟨hlow, hhigh⟩, rfl⟩, hw⟩

/-- R148's offset: a literal stands as written, a label counts from the next line. -/
theorem branchOffset_of_resolve {t : String} {o : Int} :
    (∃ v, resolve sym i t = .ok v ∧ branchOffset i t v = o) ↔
      numericLiteral t = some o ∨ (numericLiteral t = none ∧
        ∃ target : Nat, sym.lookup t = some target ∧ o = (target : Int) - ((i : Int) + 1)) := by
  simp only [resolve_ok]
  cases hlit : numericLiteral t with
  | some n => simp [branchOffset, hlit]
  | none => simp [branchOffset, hlit, eq_comm, and_comm]

end

/-! ### The format of each mnemonic -/

/-- The part of the encoder that reads the operands of a mnemonic (R84, R159); `encodeLine_eq` ties it to
`encodeLine`. -/
def encodeOperands (sym : SymTab) (i : Nat) (written : String) (ops : List String) :
    Mnemonic → Except AsmError Word
  | .add => encodeRType 0 sym i written ops
  | .nand => encodeRType 1 sym i written ops
  | .lw => encodeIType 2 absoluteOffset sym i written ops
  | .sw => encodeIType 3 absoluteOffset sym i written ops
  | .beq => encodeIType 4 branchOffset sym i written ops
  | .jalr => encodeJType 5 sym i written ops
  | .halt => encodeOType 6 i ops
  | .noop => encodeOType 7 i ops
  | .fill => encodeFill sym i written ops

theorem encodeLine_eq {sym : SymTab} {i : Nat} {l : Line} {t : String} {m : Mnemonic}
    (hl : l.mnemonic = some t) (hm : mnemonicOf t = some m) :
    encodeLine sym i l = encodeOperands sym i t l.operands m := by
  simp only [encodeLine, hl, hm]
  cases m <;> rfl

/-! ### The obligations on single lines -/

/-- Settles O48: both mnemonics are lines of the R-type format. -/
theorem rTypeLinesEncode : Obligations.RTypeLinesEncode := by
  intro sym i l t w hl
  refine ⟨fun hm => ?_, fun hm => ?_⟩
  all_goals
    rw [encodeLine_eq hl hm]
    exact encodeRType_ok

/-- Settles O49: the third operand's value is the offset, whether it was a literal or a label. -/
theorem loadAndStoreLinesEncode : Obligations.LoadAndStoreLinesEncode := by
  intro sym i l t w hl
  refine ⟨fun hm => ?_, fun hm => ?_⟩
  all_goals
    rw [encodeLine_eq hl hm]
    refine (encodeIType_ok (offset := absoluteOffset)).trans ?_
    simp only [absoluteOffset, exists_eq_right, encode]

/-- Settles O50: an I-type line whose offset is R148's. -/
theorem branchLinesEncode : Obligations.BranchLinesEncode := by
  intro sym i l t w hl hm
  rw [encodeLine_eq hl hm]
  refine (encodeIType_ok (offset := branchOffset)).trans ?_
  simp only [branchOffset_of_resolve, encode]

/-- Settles O51: the J-type format, and the O-type format for both others. -/
theorem jumpAndOpcodeOnlyLinesEncode : Obligations.JumpAndOpcodeOnlyLinesEncode := by
  intro sym i l t w hl
  refine ⟨fun hm => ?_, fun hm => ?_, fun hm => ?_⟩ <;> rw [encodeLine_eq hl hm]
  · exact encodeJType_ok
  · exact encodeOType_ok
  · exact encodeOType_ok

/-- Settles O52: the value is wrapped, not range checked. -/
theorem fillLinesEmitTheValueVerbatim : Obligations.FillLinesEmitTheValueVerbatim := by
  intro sym i l t w hl hm
  rw [encodeLine_eq hl hm]
  exact encodeFill_ok

end Sys2Proof.Asm

namespace Sys2Proof.Machine

/-! ### A branch executed at its own address -/

/-- Outside memory the fetch supplies a HALT (R181), so any other instruction was fetched from a cell. -/
theorem pc_in_memory_of_ne_halt {s : State} {j : Instr} (hd : decode s.fetch = .instr j) (hj : j ≠ .halt) :
    0 ≤ s32 s.pc ∧ s32 s.pc ≤ 65535 := by
  by_contra hout
  rw [fetch_eq, if_neg hout, show decode 25165824#32 = .instr .halt by decide] at hd
  exact hj (Decoded.instr.inj hd).symm

/-- A BEQ of a register with itself is always taken (R214). -/
theorem step_beq_self {s : State} {q : Reg} {o : Int} (hrun : s.halted = false)
    (hd : decode s.fetch = .instr (.beq q q o)) :
    step s = .next (s.stage.setNpc (s.branchTarget o)).finish :=
  step_eq_next_iff.mpr ⟨hrun, _, _, hd, .beqTaken q q o s.stage rfl, rfl⟩

/-- From a program counter in memory a 16-bit offset reaches its target unwrapped. -/
theorem s32_branchTarget_of_fetched {s : State} {o : Int} (hpc : 0 ≤ s32 s.pc ∧ s32 s.pc ≤ 65535)
    (ho : offsetInRange o) : s32 (s.branchTarget o) = s32 s.pc + 1 + o := by
  obtain ⟨hlow, hhigh⟩ := ho
  exact s32_branchTarget s (by omega) (by omega)

/-- Settles O53: what the encoder subtracts for the label, the taken branch adds again. -/
theorem assembledBranchReachesItsLabel : Obligations.AssembledBranchReachesItsLabel := by
  intro sym i target l m r label w s hl hm hops hlit htarget hw hrun hpc hfetch
  obtain ⟨t0, t1, t2, a, b, o, hops', ha, hb, ho, hlow, hhigh, rfl⟩ :=
    (Asm.branchLinesEncode sym i l m w hl hm).mp hw
  obtain ⟨rfl, rfl, rfl⟩ : r = t0 ∧ r = t1 ∧ label = t2 := by simpa [hops] using hops'
  obtain rfl : a = b := by simpa [ha, Fin.ext_iff] using hb
  obtain rfl : o = (target : Int) - ((i : Int) + 1) := by simpa [hlit, htarget] using ho
  have hd : decode s.fetch = .instr (.beq a a (target - (i + 1))) := by
    rw [hfetch, decode_encode rfl,
      Instr.signExtended_of_wellFormed (by simp [Instr.wellFormed, hlow, hhigh])]
  refine ⟨⟨a, hfetch ▸ hd⟩, _, step_beq_self hrun hd, ?_⟩
  have hmem : 0 ≤ s32 s.pc ∧ s32 s.pc ≤ 65535 := pc_in_memory_of_ne_halt hd nofun
  calc s32 (s.branchTarget (target - (i + 1)))
      = s32 s.pc + 1 + (target - (i + 1)) := s32_branchTarget_of_fetched hmem ⟨hlow, hhigh⟩
    _ = target := by omega

end Sys2Proof.Machine

namespace Sys2Proof.Asm

/-! ### Pass 2 over a program -/

/-- The word at each index is the encoding of the line there, at the line's own address. -/
theorem encodeFrom_ok {sym : SymTab} {i : Nat} {ls : List Line} {ws : List Word}
    (h : encodeFrom sym i ls = .ok ws) :
    ws.length = ls.length ∧
      ∀ k l, ls[k]? = some l → ∃ w, ws[k]? = some w ∧ encodeLine sym (i + k) l = .ok w := by
  induction ls generalizing i ws with
  | nil =>
    obtain rfl : [] = ws := by simpa [encodeFrom] using h
    exact ⟨rfl, nofun⟩
  | cons l rest ih =>
    obtain ⟨w, ws, hw, hrest, rfl⟩ := encodeFrom_ok_cons.mp h
    obtain ⟨hlen, hwords⟩ := ih hrest
    refine ⟨congrArg (· + 1) hlen, fun k m hm => ?_⟩
    cases k with
    | zero =>
      obtain rfl : l = m := by simpa using hm
      exact ⟨w, rfl, hw⟩
    | succ k => exact Nat.add_right_comm i 1 k ▸ hwords k m hm

/-- Settles O54: pass 2 from address 0, with the table of pass 1. -/
theorem assemblyEncodesEveryLineInOrder : Obligations.AssemblyEncodesEveryLineInOrder := by
  intro program words h
  obtain ⟨sym, hsym, hwords⟩ := bind_ok.mp h
  obtain ⟨hlen, hlines⟩ := encodeFrom_ok hwords
  exact ⟨sym, hsym, hlen, by simpa only [Nat.zero_add] using hlines⟩

/-! ### The output text -/

theorem digitsValue_toDigits (n : Nat) : digitsValue (Nat.toDigits 10 n) = some n := by
  have hdigits : (Nat.toDigits 10 n).all Char.isDigit = true :=
    List.all_eq_true.mpr fun c => Nat.isDigit_of_mem_toDigits (by decide) (by decide)
  have hvalue : Nat.ofDigitChars 10 (Nat.toDigits 10 n) 0 = n := Nat.ofDigitChars_ten_toDigits
  rw [digitsValue, if_pos ⟨Nat.toDigits_ne_nil, hdigits⟩]
  exact congrArg some hvalue

theorem integerOf_of_sign {t : String} {ds : List Char} {n : Nat} (ht : t.toList = '-' :: ds)
    (hds : digitsValue ds = some n) : integerOf t = some (-(n : Int)) := by
  simp [integerOf, ht, hds]

theorem integerOf_of_no_sign {t : String} {n : Nat} (ht : '-' ∉ t.toList)
    (hds : digitsValue t.toList = some n) : integerOf t = some (n : Int) := by
  unfold integerOf
  split
  · next ds hsign => exact absurd (hsign ▸ List.mem_cons_self) ht
  · simp [hds]

theorem sign_not_mem_toDigits (n : Nat) : '-' ∉ Nat.toDigits 10 n := fun h =>
  absurd (Nat.isDigit_of_mem_toDigits (by decide) (by decide) h) (by decide)

/-- The decimal text of any integer reads back as that integer (R161, R281). -/
theorem integerOf_decimalText (n : Int) : integerOf (decimalText n) = some n := by
  by_cases hneg : n < 0
  · have ht : (decimalText n).toList = '-' :: Nat.toDigits 10 n.natAbs := by
      rw [decimalText, if_pos hneg, String.toList_ofList]
    rw [integerOf_of_sign ht (digitsValue_toDigits _)]
    congr 1; omega
  · have ht : (decimalText n).toList = Nat.toDigits 10 n.natAbs := by
      rw [decimalText, if_neg hneg, String.toList_ofList]
    rw [integerOf_of_no_sign (ht ▸ sign_not_mem_toDigits _) (ht ▸ digitsValue_toDigits _)]
    congr 1; omega

end Sys2Proof.Asm

namespace Sys2Proof.Machine

theorem readImage_cons {i : Nat} {t : String} {rest : List String} {n : Int} (ht : Asm.integerOf t = some n) :
    readImage i (t :: rest) = (readImage (i + 1) rest).map (n :: ·) := by
  simp only [readImage, ht]
  cases readImage (i + 1) rest <;> rfl

theorem readImage_map_decimalText (i : Nat) (ns : List Int) :
    readImage i (ns.map Asm.decimalText) = .ok ns := by
  induction ns generalizing i with
  | nil => rfl
  | cons n rest ih =>
    rw [List.map_cons, readImage_cons (Asm.integerOf_decimalText n), ih, Except.map]

/-- Settles O57: every line of the output is the decimal text of one signed reading. -/
theorem outputTextReadsBackAsTheImage : Obligations.OutputTextReadsBackAsTheImage := by
  intro words
  have hlines : Asm.outputLines words = (words.map s32).map Asm.decimalText := by
    rw [List.map_map, Asm.outputLines]; rfl
  rw [hlines, readImage_map_decimalText]

end Sys2Proof.Machine

/-! The decoder's family (42_decoder.md): the fetch outside memory with the HALT step it causes, and the
table of decode examples. -/

namespace Sys2Proof

/-- Settles O6: each word of R187's table is a closed fact about the decoder. -/
theorem sampleWordsDecode : Obligations.SampleWordsDecode := by
  unfold Obligations.SampleWordsDecode
  decide

end Sys2Proof

namespace Sys2Proof.Machine

/-- The whole step in which a HALT executes, from a cell or manufactured (R240). -/
theorem step_of_decode_halt {s : State} (hrun : s.halted = false) (hd : decode s.fetch = .instr .halt) :
    step s = .next s.stage.halt.finish :=
  step_eq_next_iff.mpr ⟨hrun, _, _, hd, .halt s.stage, rfl⟩

/-- Settles O21: the word supplied outside memory decodes to HALT, whose step sets the flag and advances. -/
theorem fetchReadsItsCellAndOutsideMemoryHalts :
    Obligations.FetchReadsItsCellAndOutsideMemoryHalts := by
  refine ⟨fun s hlow hhigh => ?_, fun s hrun hout => ?_⟩
  · rw [fetch_eq, if_pos ⟨hlow, hhigh⟩]
  · have hfetch : s.fetch = 25165824#32 := by rw [fetch_eq, if_neg hout]
    have hd : decode s.fetch = .instr .halt := by rw [hfetch]; decide
    exact ⟨hfetch, s.stage.halt.finish, step_of_decode_halt hrun hd, rfl, rfl,
      s32_nextSequential s.pc, rfl, rfl, fun _ hk => regs_finish s.stage.halt hk⟩

end Sys2Proof.Machine

/-! The R-type family (43_rtype.md): ADD's and NAND's results as word arithmetic, and what writing them to
the destination does to the state. -/

namespace Sys2Proof.Machine

/-! ### The two results -/

theorem u32_addResult (u v : Word) : u32 (addResult u v) = (u32 u + u32 v) % 2 ^ 32 := by
  rw [addResult_eq]; exact BitVec.toNat_add u v

/-- A signed sum that a word can hold is not wrapped (R200 case e). -/
theorem s32_addResult {u v : Word} (hlow : -2147483648 ≤ s32 u + s32 v)
    (hhigh : s32 u + s32 v ≤ 2147483647) : s32 (addResult u v) = s32 u + s32 v :=
  BitVec.toInt_ofInt_eq_self (by decide) hlow (Int.lt_add_one_of_le hhigh)

theorem getLsbD_nandResult (u v : Word) {j : Nat} (hj : j < 32) :
    (nandResult u v).getLsbD j = !(u.getLsbD j && v.getLsbD j) := by
  simp [nandResult, hj]

/-! ### The destination and the frame of a register write -/

theorem regs_writeReg_same (s : State) {r : Reg} (v : Word) (hr : r ≠ 0) :
    (s.writeReg r v).regs[r] = v := by
  rw [regs_writeReg, if_pos ⟨rfl, hr⟩]

theorem regs_writeReg_other (s : State) {r k : Reg} (v : Word) (h : k ≠ r ∨ r = 0) :
    (s.writeReg r v).regs[k] = s.regs[k] := by
  rw [regs_writeReg, if_neg (by tauto)]

/-- A register write changes the register file alone (R12). -/
theorem writeReg_frame (s : State) (r : Reg) (v : Word) :
    s.writeReg r v = { s with regs := (s.writeReg r v).regs } := rfl

/-! ### The obligations on ADD and NAND -/

/-- Settles O8: the destination's new cell is the result, read both ways. -/
theorem addIsTheSumModuloTwoToThe32 : Obligations.AddIsTheSumModuloTwoToThe32 := by
  intro a b d s hd
  refine ⟨_, (Executes.add a b d s).exec_eq, ?unsigned, ?signed, rfl, rfl⟩
  case unsigned => rw [regs_writeReg_same s _ hd, u32_addResult]
  case signed =>
    rintro ⟨hlow, hhigh⟩
    rw [regs_writeReg_same s _ hd, s32_addResult hlow hhigh]

/-- Settles O7: ADD is one register write. -/
theorem addWritesWrappedSum : Obligations.AddWritesWrappedSum := by
  intro a b d s
  exact ⟨_, (Executes.add a b d s).exec_eq, fun k => regs_writeReg s d k _, writeReg_frame s d _⟩

/-- Settles O9: NAND is one register write, of a word known bit by bit. -/
theorem nandWritesComplementOfAnd : Obligations.NandWritesComplementOfAnd := by
  intro a b d s
  refine ⟨_, (Executes.nand a b d s).exec_eq, fun hd j hj => ?result,
    fun k hk => regs_writeReg_other s _ hk, writeReg_frame s d _⟩
  case result => rw [regs_writeReg_same s _ hd, getLsbD_nandResult _ _ hj]

end Sys2Proof.Machine

/-! The I-type family (44_itype.md): the cell an effective address names, what a load, a store and the controlled
halt do to the state, and BEQ's choice of the next program counter. -/

namespace Sys2Proof.Machine

/-! ### The effective address and memory's range -/

section
variable {s : State} {a : Reg} {o : Int}

/-- An effective address in [0, 65535] names the cell of that number (R216). -/
theorem cellOf_effectiveAddress (hlow : 0 ≤ s32 (s.readReg a) + o)
    (hhigh : s32 (s.readReg a) + o ≤ 65535) :
    cellOf (s.effectiveAddress a o) = some (s32 (s.readReg a) + o).toNat :=
  cellOf_eq_some.mpr ⟨hlow, hhigh, rfl⟩

/-- An effective address outside [0, 65535] names no cell (R54). -/
theorem cellOf_effectiveAddress_eq_none
    (hout : ¬ (0 ≤ s32 (s.readReg a) + o ∧ s32 (s.readReg a) + o ≤ 65535)) :
    cellOf (s.effectiveAddress a o) = none :=
  cellOf_eq_none.mpr hout

end

/-! ### The frames of the three effects -/

/-- A store changes memory alone (R53). -/
theorem memWrite_frame (s : State) (c : Nat) (v : Word) :
    s.memWrite c v = { s with mem := (s.memWrite c v).mem } := rfl

/-- The controlled halt sets the halted flag and the record of the unbounded address, and nothing else (R302). -/
theorem raiseInvalidAddress_eq (s : State) (ea : Int) :
    s.raiseInvalidAddress ea = { s with halted := true, fault := .invalidAddress ea } := rfl

/-- Staging a next program counter changes that field alone (R25). -/
theorem setNpc_eq (s : State) (t : Word) : s.setNpc t = { s with npc := t } := rfl

/-! ### The obligations on LW, SW and BEQ -/

/-- Settles O10: LW is one register write, of the word in the addressed cell. -/
theorem lwLoadsTheAddressedCell : Obligations.LwLoadsTheAddressedCell := by
  intro a b o s hlow hhigh
  have hc := cellOf_effectiveAddress hlow hhigh
  exact ⟨_, (Executes.lwLoads a b o s _ hc).exec_eq, fun k => regs_writeReg s b k _, writeReg_frame s b _⟩

/-- Settles O12: SW is one memory write, of the source register's word to the addressed cell. -/
theorem swStoresToTheAddressedCell : Obligations.SwStoresToTheAddressedCell := by
  intro a b o s hlow hhigh
  have hc := cellOf_effectiveAddress hlow hhigh
  exact ⟨_, (Executes.swStores a b o s _ hc).exec_eq, fun c => Memory.read_write s.mem _ c _,
    memWrite_frame s _ _⟩

/-- Settles O11: the address names no cell, so LW raises, before it looks at its destination. -/
theorem lwOutsideMemoryHalts : Obligations.LwOutsideMemoryHalts := by
  intro a b o s hout
  have hc := cellOf_effectiveAddress_eq_none hout
  rw [(Executes.lwHalts a b o s hc).exec_eq, raiseInvalidAddress_eq, State.effectiveAddress]

/-- Settles O13: the address names no cell, so SW raises in place of its store. -/
theorem swOutsideMemoryHalts : Obligations.SwOutsideMemoryHalts := by
  intro a b o s hout
  have hc := cellOf_effectiveAddress_eq_none hout
  rw [(Executes.swHalts a b o s hc).exec_eq, raiseInvalidAddress_eq, State.effectiveAddress]

/-- Settles O14: a taken branch overrides the staged value with its target, and one not taken lets it stand. -/
theorem beqOverridesTheStagedPcWhenEqual : Obligations.BeqOverridesTheStagedPcWhenEqual := by
  intro a b o s
  by_cases h : s.readReg a = s.readReg b
  · rw [(Executes.beqTaken a b o s h).exec_eq, if_pos h, setNpc_eq, State.branchTarget]
  · rw [(Executes.beqNotTaken a b o s h).exec_eq, if_neg h]

end Sys2Proof.Machine

/-! The J-type family (45_jtype.md): the link JALR writes, and the jump it makes when its fields differ. -/

namespace Sys2Proof.Machine

/-- The cells after a link: the linked register's is `pc + 1`, unless that is register 0 (R230, R12). -/
theorem regs_writeReg_link (s : State) (r k : Reg) :
    (s.writeReg r s.link).regs[k] = if k = r ∧ r ≠ 0 then wrap32 (s32 s.pc + 1) else s.regs[k] := by
  rw [regs_writeReg, State.link]

/-- A link followed by a jump changes the register file and the staged program counter alone (R230). -/
theorem writeReg_setNpc_frame (s : State) (r : Reg) (v target : Word) :
    (s.writeReg r v).setNpc target = { s with regs := (s.writeReg r v).regs, npc := target } := rfl

/-- Settles O15: JALR is the link alone when both fields name one register, and the link then the jump
when they differ. -/
theorem jalrLinksAndJumps : Obligations.JalrLinksAndJumps := by
  intro a b s
  by_cases h : a = b
  case pos =>
    subst h
    exact ⟨_, (Executes.jalrLinks a s).exec_eq, (if_pos rfl).symm, regs_writeReg_link s a,
      writeReg_frame s a _⟩
  case neg =>
    exact ⟨_, (Executes.jalrJumps a b s h).exec_eq, (if_neg h).symm, regs_writeReg_link s b,
      writeReg_setNpc_frame s b _ _⟩

end Sys2Proof.Machine

/-! The O-type family (46_otype.md): the whole step of the two instructions without operands. -/

namespace Sys2Proof.Machine

/-! ### Halting and the other parts of a step -/

/-- Halting sets the halted flag alone (R240). -/
theorem halt_eq (s : State) : s.halt = { s with halted := true } := rfl

/-- Staging does not look at the halted flag, so HALT's effect may be taken before it. -/
theorem halt_stage (s : State) : s.stage.halt = s.halt.stage := rfl

/-- The whole step in which a NOOP executes (R241). -/
theorem step_of_decode_noop {s : State} (hrun : s.halted = false) (hd : decode s.fetch = .instr .noop) :
    step s = .next s.stage.finish :=
  step_eq_next_iff.mpr ⟨hrun, _, _, hd, .noop s.stage, rfl⟩

/-! ### The obligations on HALT and NOOP -/

/-- Settles O16: the step of HALT is that of an executor that does nothing, taken from the halted state. -/
theorem haltSetsTheFlagAndItsStepIsWhole : Obligations.HaltSetsTheFlagAndItsStepIsWhole := by
  refine ⟨fun s => (Executes.halt s).exec_eq, fun s hrun h0 hd => ?step⟩
  case step =>
    have hwhole : s.stage.halt.finish = { s with
        pc := nextSequential s.pc, npc := nextSequential s.pc, executed := s.executed + 1,
        halted := true } := by
      rw [halt_stage, finish_stage_of_zero (s := s.halt) h0, halt_eq]
    exact ⟨s.stage.halt.finish, step_of_decode_halt hrun hd, s32_nextSequential s.pc, hwhole⟩

/-- Settles O17: NOOP leaves the staged state as it is, so its step is the staging and the ending alone. -/
theorem noopOnlyAdvances : Obligations.NoopOnlyAdvances := by
  refine ⟨fun s => (Executes.noop s).exec_eq, fun s hrun h0 hd => ?step⟩
  case step =>
    exact ⟨s.stage.finish, step_of_decode_noop hrun hd, s32_nextSequential s.pc, finish_stage_of_zero h0⟩

end Sys2Proof.Machine

/-! The engine's family (47_engine.md): the seven parts of a step, the program counter it commits, and the run
loop by its three cases. -/

namespace Sys2Proof.Machine

/-! ### The fall-through -/

/-- Clearing the upper half of a word leaves its signed reading modulo 2^16. -/
theorem and_lowHalf_eq_wrap32 (w : Word) : w &&& 0xFFFF#32 = wrap32 (s32 w % 65536) := by
  apply BitVec.eq_of_toNat_eq
  have hmask : u32 (w &&& 0xFFFF#32) = u32 w % 2 ^ 16 := Nat.and_two_pow_sub_one_eq_mod (u32 w) 16
  have hsigned := BitVec.toInt_eq_toNat_bmod w
  simp only [u32, s32, wrap32, BitVec.toNat_ofInt, Int.bmod] at *
  omega

/-- The increment may be wrapped to 32 bits before the reduction to memory's size (R251). -/
theorem s32_succ_emod (w : Word) : s32 (w + 1) % 65536 = (s32 w + 1) % 65536 := by
  have hsucc : s32 (w + 1) = (s32 w + 1).bmod 4294967296 := s32_add_wrap32 w 1
  rw [hsucc]
  simp only [Int.bmod]
  omega

/-- Settles O23: the fall-through is a remainder modulo 65536, which the low half of a word holds. -/
theorem stagedPcIsInMemory : Obligations.StagedPcIsInMemory := by
  intro pc
  have hstaged : s32 (nextSequential pc) = (s32 pc + 1) % 65536 := s32_nextSequential pc
  refine ⟨by omega, by omega, ?masked⟩
  case masked => rw [and_lowHalf_eq_wrap32, s32_succ_emod]; rfl

/-! ### The parts of a step -/

/-- The executor of what a running machine decoded answers on the staged state, and parts 5 to 7 end the
step on its answer (R250). -/
theorem exists_step_of_decode {s : State} {i : Instr} (hrun : s.halted = false)
    (hd : decode s.fetch = .instr i) :
    ∃ u, exec i s.stage = .next u ∧ step s = .next u.finish := by
  obtain ⟨u, hu, he⟩ := exists_executes (instr_of_decode hd).1 s.stage
  exact ⟨u, hu, step_eq_next_iff.mpr ⟨hrun, i, u, hd, he, rfl⟩⟩

theorem exists_step {s : State} (hrun : s.halted = false) : ∃ t, step s = .next t := by
  obtain ⟨i, hd, -⟩ := decode_eq_instr s.fetch
  obtain ⟨u, -, ht⟩ := exists_step_of_decode hrun hd
  exact ⟨_, ht⟩

theorem executed_of_step {s t : State} (h : step s = .next t) : t.executed = s.executed + 1 := by
  obtain ⟨-, i, u, -, he, rfl⟩ := step_eq_next_iff.mp h
  exact congrArg (· + 1) he.executed_eq

/-! ### The obligations on one step -/

/-- Settles O20: only the halted flag keeps a step from its answer. -/
theorem stepIsDefinedExactlyWhenRunning : Obligations.StepIsDefinedExactlyWhenRunning :=
  fun _ => ⟨fun ⟨_, h⟩ => (step_eq_next_iff.mp h).1, exists_step⟩

/-- Settles O19: the staging and the ending of a step, written out as updates of the state. -/
theorem stepRunsTheDecodedInstruction : Obligations.StepRunsTheDecodedInstruction :=
  fun _ _ hrun hd => exists_step_of_decode hrun hd

/-- Settles O22: the staged fall-through is committed unless the executor was a taken BEQ, fetched from
memory and so with an unwrapped target, or a JALR that jumps. -/
theorem pcAfterStepFollowsTheTable : Obligations.PcAfterStepFollowsTheTable := by
  intro s t hstep
  obtain ⟨-, i, u, hd, he, rfl⟩ := step_eq_next_iff.mp hstep
  rw [hd]
  cases he with
  | beqTaken a b o _ heq =>
    have hmem : 0 ≤ s32 s.pc ∧ s32 s.pc ≤ 65535 := pc_in_memory_of_ne_halt hd nofun
    have ho : offsetInRange o := of_decide_eq_true (instr_of_decode hd).2
    exact (s32_branchTarget_of_fetched hmem ho).trans (if_pos heq).symm
  | beqNotTaken a b o _ hne => exact (s32_nextSequential s.pc).trans (if_neg hne).symm
  | jalrLinks a => exact (s32_nextSequential s.pc).trans (if_pos rfl).symm
  | jalrJumps a b _ hne => exact Eq.symm (if_neg hne)
  | _ => exact s32_nextSequential s.pc

/-! ### The machine behind the host's interface -/

/-- A host's run of one step more, when it answers, is a step of the machine and the rest of the run. -/
theorem host_run_succ {n : Nat} {s t : State} (h : Host.Core.run Sys2Proof.core (n + 1) s = .next t) :
    ∃ u, step s = .next u ∧ Host.Core.run Sys2Proof.core n u = .next t := by
  simp only [Host.Core.run] at h
  split at h
  · next u hu => exact ⟨u, hu, h⟩
  · cases h
  · cases h

/-- Settles O43: by induction on the steps, each of which counts itself. -/
theorem executedCountsTheSteps : Obligations.ExecutedCountsTheSteps := by
  intro n
  induction n with
  | zero => rintro s t ⟨⟩; rfl
  | succ n ih =>
    intro s t h
    obtain ⟨u, hstep, hrest⟩ := host_run_succ h
    calc t.executed = u.executed + n := ih u t hrest
      _ = s.executed + 1 + n := by rw [executed_of_step hstep]
      _ = s.executed + (n + 1) := by omega

/-! ### The run loop -/

/-- A halted machine emits its state and takes no step, whatever the fuel (R254). -/
theorem run_of_halted {s : State} (h : s.halted = true) (n : Nat) : run n s = ([emit s], s) := by
  cases n with
  | zero => rfl
  | succ n => exact if_pos h

/-- One fuel more runs the first step and then the rest from its answer (R255). -/
theorem run_succ_of_step {s t : State} (h : step s = .next t) (n : Nat) :
    run (n + 1) s = (emit s :: (run n t).1, (run n t).2) := by
  have hrun : s.halted = false := (step_eq_next_iff.mp h).1
  simp [run, hrun, h]

/-- The induction behind every fact about `run`: its fuel is spent, its machine is halted, or it takes a
step and goes on. -/
theorem run_induction {P : Nat → State → Prop} (spent : ∀ s, P 0 s)
    (halted : ∀ n s, s.halted = true → P n s)
    (goesOn : ∀ n s t, step s = .next t → P n t → P (n + 1) s) : ∀ n s, P n s := by
  intro n
  induction n with
  | zero => exact spent
  | succ n ih =>
    intro s
    cases hs : s.halted with
    | true => exact halted _ s hs
    | false =>
      obtain ⟨t, ht⟩ := exists_step hs
      exact goesOn n s t ht (ih t)

/-- Where a run with `n` fuel has not halted, the next step leads to where one fuel more ends. -/
theorem step_run {n : Nat} {s : State} (h : (run n s).2.halted = false) :
    step (run n s).2 = .next (run (n + 1) s).2 := by
  induction n, s using run_induction with
  | spent s =>
    obtain ⟨t, ht⟩ := exists_step (s := s) h
    rw [run_succ_of_step ht]
    exact ht
  | halted n s hs => simp [run_of_halted hs, hs] at h
  | goesOn n s t hst ih =>
    rw [run_succ_of_step hst] at h ⊢
    rw [run_succ_of_step hst]
    exact ih h

/-- A run emits its start state and one state for each step it counts. -/
theorem length_run_add_executed (n : Nat) (s : State) :
    (run n s).1.length + s.executed = (run n s).2.executed + 1 := by
  induction n, s using run_induction with
  | spent s => exact Nat.add_comm 1 _
  | halted n s hs => rw [run_of_halted hs]; exact Nat.add_comm 1 _
  | goesOn n s t hst ih =>
    have hcount : t.executed = s.executed + 1 := executed_of_step hst
    simp only [run_succ_of_step hst, List.length_cons]
    omega

/-- The emission at position `k` is that of the state `k` fuel reaches. -/
theorem run_getElem? {n : Nat} {s : State} {k : Nat} (hk : k < (run n s).1.length) :
    (run n s).1[k]? = some (emit (run k s).2) := by
  induction n, s using run_induction generalizing k with
  | spent s =>
    obtain rfl : k = 0 := Nat.lt_one_iff.mp hk
    rfl
  | halted n s hs =>
    rw [run_of_halted hs] at hk ⊢
    obtain rfl : k = 0 := Nat.lt_one_iff.mp hk
    rfl
  | goesOn n s t hst ih =>
    rw [run_succ_of_step hst] at hk ⊢
    cases k with
    | zero => rfl
    | succ k =>
      rw [run_succ_of_step hst]
      exact ih (Nat.lt_of_succ_lt_succ hk)

theorem run_getLast? (n : Nat) (s : State) : (run n s).1.getLast? = some (emit (run n s).2) := by
  induction n, s using run_induction with
  | spent s => rfl
  | halted n s hs => rw [run_of_halted hs]; rfl
  | goesOn n s t hst ih => simp [run_succ_of_step hst, List.getLast?_cons, ih]

/-- A run that has not halted has used all its fuel (R255, R256). -/
theorem length_run_of_running {n : Nat} {s : State} (h : (run n s).2.halted = false) :
    (run n s).1.length = n + 1 := by
  induction n, s using run_induction with
  | spent s => rfl
  | halted n s hs => simp [run_of_halted hs, hs] at h
  | goesOn n s t hst ih =>
    rw [run_succ_of_step hst] at h ⊢
    exact congrArg (· + 1) (ih h)

/-! ### The obligations on runs -/

/-- Settles O41: each part is one of the facts above, each proved along the run. -/
theorem runEmitsTheStartAndEveryStep : Obligations.RunEmitsTheStartAndEveryStep :=
  fun n s => ⟨rfl, fun _ => step_run, length_run_add_executed n s, fun _ => run_getElem?,
    run_getLast? n s, length_run_of_running⟩

/-- Settles O42: more fuel follows the same steps to the halt, and there it is left over. -/
theorem haltedRunIsFinal : Obligations.HaltedRunIsFinal := by
  intro n m s h
  induction n, s using run_induction with
  | spent s => rw [Nat.zero_add]; exact run_of_halted h m
  | halted n s hs => rw [run_of_halted hs, run_of_halted hs]
  | goesOn n s t hst ih =>
    rw [run_succ_of_step hst] at h
    rw [Nat.add_right_comm, run_succ_of_step hst, run_succ_of_step hst, ih h]

end Sys2Proof.Machine

/-! The families of the host interface and of the exceptions (48_host_interface.md, 60_exceptions.md): which
images load and what a load leaves, the preload, the emission, the whole faulting step, and the runs in which
nothing can fault. -/

namespace Sys2Proof.Machine

/-! ### Image load -/

theorem firstOutOfRange_eq_none {image : List Int} :
    firstOutOfRange image = none ↔ ∀ n ∈ image, Asm.inWordRange n := by
  simp [firstOutOfRange, List.find?_eq_none]

/-- A load answers exactly when both checks of R282 pass, and then with the image's cells on reset. -/
theorem load_eq_ok_iff {image : List Int} {s : State} : load image = .ok s ↔
    (∀ n ∈ image, Asm.inWordRange n) ∧ image.length ≤ Config.memSize ∧
      s = { State.reset with mem := imageCells 0 image, nloaded := image.length } := by
  rw [← firstOutOfRange_eq_none]
  constructor
  · intro h
    cases hrange : firstOutOfRange image with
    | some n => simp [load, hrange] at h
    | none => exact ⟨rfl, load_eq_ok h⟩
  · rintro ⟨hrange, hlen, rfl⟩
    simp only [load, hrange, if_pos hlen]

/-- A cell of a loaded machine reads as the image's word there, and past the image's end as 0 (R280). -/
theorem read_of_load {image : List Int} {s : State} (h : load image = .ok s) (c : Nat) :
    Memory.read s.mem c = (image[c]?.map wrap32).getD 0#32 := by
  obtain ⟨-, rfl⟩ := load_eq_ok h
  simpa using imageCells_read image 0 c

/-- Settles O37: each cell is read off the image, and the other fields off the load's answer. -/
theorem loadPlacesTheImageFromAddressZero : Obligations.LoadPlacesTheImageFromAddressZero := by
  intro image s h
  refine ⟨fun c n hn => ?inside, fun c hc => ?past, ?frame⟩
  case inside => rw [read_of_load h, hn]; rfl
  case past => rw [read_of_load h, List.getElem?_eq_none hc]; rfl
  case frame => obtain ⟨-, rfl⟩ := load_eq_ok h; rfl

/-- Settles O38: the two checks of a load are the two conditions. -/
theorem imageLoadsExactlyWhenItFits : Obligations.ImageLoadsExactlyWhenItFits := by
  intro image
  constructor
  · rintro ⟨s, h⟩
    obtain ⟨hrange, hlen, -⟩ := load_eq_ok_iff.mp h
    exact ⟨hrange, hlen⟩
  · rintro ⟨hrange, hlen⟩
    exact ⟨_, load_eq_ok_iff.mpr ⟨hrange, hlen, rfl⟩⟩

/-- Every signed reading of a word is one an image may hold (R282). -/
theorem inWordRange_s32 (w : Word) : Asm.inWordRange (s32 w) :=
  ⟨BitVec.le_toInt w, Int.le_of_lt_add_one BitVec.toInt_lt⟩

/-- Settles O56: an assembled program has a word a line, and wrapping a word's signed reading gives the word
back. -/
theorem assembledImageLoadsWordForWord : Obligations.AssembledImageLoadsWordForWord := by
  intro program words h hfits
  obtain ⟨-, -, hlen, -⟩ := Asm.assemblyEncodesEveryLineInOrder program words h
  have hrange : ∀ n ∈ words.map s32, Asm.inWordRange n :=
    List.forall_mem_map.mpr fun w _ => inWordRange_s32 w
  obtain ⟨s, hs⟩ := (imageLoadsExactlyWhenItFits (words.map s32)).mpr ⟨hrange, by simpa [hlen] using hfits⟩
  refine ⟨s, hs, ?count, fun i w hw => ?word⟩
  case count =>
    obtain ⟨-, rfl⟩ := load_eq_ok hs
    simpa using hlen
  case word =>
    calc Memory.read s.mem i = wrap32 (s32 w) := by rw [read_of_load hs, List.getElem?_map, hw]; rfl
      _ = w := BitVec.ofInt_toInt

/-! ### Preload -/

theorem preload_eq_none {r : Reg} {v : Word} {s : State} (h : r = 0 ∨ s.executed ≠ 0) :
    preload r v s = none := if_pos h

theorem preload_eq_some {r : Reg} {v : Word} {s : State} (hr : r ≠ 0) (hs : s.executed = 0) :
    preload r v s = some (s.writeReg r v) := if_neg (not_or.mpr ⟨hr, not_not.mpr hs⟩)

theorem writeReg_of_ne_zero {r : Reg} (hr : r ≠ 0) (s : State) (v : Word) :
    s.writeReg r v = { s with regs := s.regs.set r v } := by
  rw [State.writeReg, if_neg hr]

/-- Settles O40: an allowed preload is one register write. -/
theorem preloadSetsOneRegisterBeforeTheFirstStep :
    Obligations.PreloadSetsOneRegisterBeforeTheFirstStep := by
  intro r v s
  refine ⟨fun hr hs => ?_, fun hr => preload_eq_none (.inl hr), fun hs => preload_eq_none (.inr hs)⟩
  rw [preload_eq_some hr hs, writeReg_of_ne_zero hr]

/-! ### Emission -/

theorem length_emit_mem (s : State) : (emit s).mem.length = s.nloaded := by
  simp [emit]

theorem getElem?_emit_mem {s : State} {c : Nat} (hc : c < s.nloaded) :
    (emit s).mem[c]? = some (Memory.read s.mem c) := by
  simp [emit, State.memRead, hc]

theorem emit_regs (s : State) (k : Reg) : (emit s).regs[k] = s.readReg k := by
  simp [emit]

/-- The count is shown on halt (R284). -/
theorem emit_executed {s : State} (h : s.halted = true) : (emit s).executed = some s.executed := if_pos h

/-- Settles O45: the emission datum by datum. -/
theorem emissionExposesTheCoreState : Obligations.EmissionExposesTheCoreState := fun s =>
  ⟨rfl, length_emit_mem s, fun _ => getElem?_emit_mem, emit_regs s, rfl, emit_executed, rfl⟩

/-! ### The faulting step -/

theorem AccessesOutside.executes {i : Instr} {s : State} {a b : Reg} {o : Int}
    (h : AccessesOutside i s a b o) :
    Executes i s (s.raiseInvalidAddress (s.effectiveAddress a o)) := by
  obtain ⟨rfl | rfl, hout⟩ := h
  · exact .lwHalts a b o s (cellOf_effectiveAddress_eq_none hout)
  · exact .swHalts a b o s (cellOf_effectiveAddress_eq_none hout)

/-- The whole step of an LW or SW whose address is outside memory: the controlled halt on the staged state,
then parts 5 to 7 like any step's (R302, R262). -/
theorem step_of_accessesOutside {i : Instr} {s : State} {a b : Reg} {o : Int} (hrun : s.halted = false)
    (hd : decode s.fetch = .instr i) (h : AccessesOutside i s.stage a b o) :
    step s = .next (s.stage.raiseInvalidAddress (s.stage.effectiveAddress a o)).finish :=
  step_eq_next_iff.mpr ⟨hrun, i, _, hd, h.executes, rfl⟩

/-- Settles O28: an LW or SW was fetched from memory (outside it the fetch supplies a HALT), where the
fall-through can be undone. -/
theorem invalidAddressStepIsAWholeStep : Obligations.InvalidAddressStepIsAWholeStep := by
  intro s a b o hrun hd hout
  obtain ⟨i, hdi, hi⟩ : ∃ i, decode s.fetch = .instr i ∧ (i = .lw a b o ∨ i = .sw a b o) := by
    rcases hd with hd | hd
    · exact ⟨_, hd, .inl rfl⟩
    · exact ⟨_, hd, .inr rfl⟩
  have hmem : 0 ≤ s32 s.pc ∧ s32 s.pc ≤ 65535 :=
    pc_in_memory_of_ne_halt hdi (by rintro rfl; simp at hi)
  have hpc : s32 (nextSequential s.pc) = (s32 s.pc + 1) % 65536 := s32_nextSequential s.pc
  refine ⟨_, step_of_accessesOutside (b := b) hrun hdi ⟨hi, hout⟩, rfl, hpc, ?_⟩
  change (s32 (nextSequential s.pc) - 1) % 65536 = s32 s.pc
  omega

/-! ### Runs without LW and SW -/

/-- A step that decodes neither LW nor SW keeps the fault record (R301, R308). -/
theorem fault_of_step {s t : State} (h : step s = .next t)
    (hno : ∀ a b o, decode s.fetch ≠ .instr (.lw a b o) ∧ decode s.fetch ≠ .instr (.sw a b o)) :
    t.fault = s.fault := by
  obtain hkept | ⟨a, b, o, hd, -⟩ := (onlyHaltAndBadAddressesHalt s t h).2
  · exact hkept
  · obtain ⟨hlw, hsw⟩ := hno a b o
    exact absurd hd (not_or.mpr ⟨hlw, hsw⟩)

/-- One fuel more takes one step from where the run stood, or leaves a halted machine there. -/
theorem run_succ_eq_or_step (n : Nat) (s : State) :
    (run (n + 1) s).2 = (run n s).2 ∨ step (run n s).2 = .next (run (n + 1) s).2 := by
  cases h : (run n s).2.halted with
  | true => exact .inl (congrArg Prod.snd (haltedRunIsFinal n 1 s h))
  | false => exact .inr (step_run h)

/-- Settles O44: by induction on the steps, none of which leaves a record. -/
theorem runsWithoutLoadsAndStoresAreSafe : Obligations.RunsWithoutLoadsAndStoresAreSafe := by
  intro s k hs hno n hn
  induction n with
  | zero => exact hs
  | succ n ih =>
    have hprev : (run n s).2.fault = .none := ih (Nat.le_of_succ_le hn)
    obtain hsame | hstep := run_succ_eq_or_step n s
    · rw [hsame]; exact hprev
    · exact (fault_of_step hstep (hno n (Nat.le_of_succ_le hn))).trans hprev

end Sys2Proof.Machine
